-- ==== Sys2Proof/Word.lean ====
section
/-! DEFINITION. The word types: bytes, the 32-bit instruction word (R70), the 64-bit address (R29) and the
widest vector a run can use (R6). -/

namespace Sys2Proof

/-- One byte of program text. -/
abbrev Byte := BitVec 8

/-- One instruction word, `instr[31:0]` (R70). -/
abbrev Word := BitVec 32

/-- An address, the width of `pc` (R29). -/
abbrev Addr := BitVec 64

/-- The number of bits of storage of one vector: the largest `VL` (R6). -/
abbrev maxVL : Nat := 2048

/-- Storage of one vector; a run uses its low `VL` bits (log 6). -/
abbrev Vec := BitVec maxVL

/-- The number of ZA array vectors at the largest `VL`, `VL DIV 8` (R23). -/
abbrev maxVectors : Nat := 256

end Sys2Proof
end

