-- ==== Sys2Proof/Syntax.lean ====
section
/-! DEFINITION. The instruction as syntax: element sizes, operand shapes, the twelve encoding classes (R74, R101
to R112), the record decode hands to the Operation (R100), and an assembler line (R81). -/

namespace Sys2Proof

/-- The element size and the suffix of all three operands (R74, R81): `.H`, `.S`, `.D`. -/
inductive ESize where
  | h | s | d
  deriving DecidableEq, Repr

/-- `esize` in bits (R77). -/
abbrev ESize.bits : ESize → Nat
  | .h => 16
  | .s => 32
  | .d => 64

/-- The tiles of one element size, `esize DIV 8`: 2, 4, 8 (R25). -/
def ESize.tiles (es : ESize) : Nat := es.bits / 8

/-- `nreg` or `mreg`: whether a source is one register or a group of two (R19, R77). -/
inductive NumRegs where
  | one | two
  deriving DecidableEq, Repr

/-- The number itself, 1 or 2 (R100). -/
def NumRegs.count : NumRegs → Nat
  | .one => 1
  | .two => 2

/-- `FMOP4A (non-widening)`, one constructor per row of the opcode table, in its order. The operands are the tile
number (field `ZAda`, R71), the number of the first register of the first source and that of the second source, as
the decode builds them: the five-bit strings `'0':Zn:'0'` and `'1':Zm:'0'` (R75). -/
inductive Instr where
  | fmop4aHSingleMultiple (da : BitVec 1) (n m : BitVec 5)
  | fmop4aHSingle (da : BitVec 1) (n m : BitVec 5)
  | fmop4aHMultipleSingle (da : BitVec 1) (n m : BitVec 5)
  | fmop4aHMultiple (da : BitVec 1) (n m : BitVec 5)
  | fmop4aSSingleMultiple (da : BitVec 2) (n m : BitVec 5)
  | fmop4aSSingle (da : BitVec 2) (n m : BitVec 5)
  | fmop4aSMultipleSingle (da : BitVec 2) (n m : BitVec 5)
  | fmop4aSMultiple (da : BitVec 2) (n m : BitVec 5)
  | fmop4aDSingleMultiple (da : BitVec 3) (n m : BitVec 5)
  | fmop4aDSingle (da : BitVec 3) (n m : BitVec 5)
  | fmop4aDMultipleSingle (da : BitVec 3) (n m : BitVec 5)
  | fmop4aDMultiple (da : BitVec 3) (n m : BitVec 5)
  deriving DecidableEq, Repr

/-- The decoded record of R100: everything of an instruction word that reaches the Operation. -/
structure Record where
  /-- element size -/
  esize : ESize
  /-- first register of the first source -/
  n : BitVec 5
  /-- first register of the second source -/
  m : BitVec 5
  /-- registers in the first source -/
  nreg : NumRegs
  /-- registers in the second source -/
  mreg : NumRegs
  /-- tile number -/
  da : Nat
  /-- TRUE would negate the first-source element; FALSE in every class (R77, R124) -/
  subOp : Bool
  deriving DecidableEq, Repr

/-- A source operand as an assembler writes it (R81): `Z<reg>.T`, or the pair `Z<first>.T-Z<second>.T` in braces. -/
inductive AsmSource where
  | reg (number : Nat) (suffix : ESize)
  | pair (first : Nat) (firstSuffix : ESize) (second : Nat) (secondSuffix : ESize)
  deriving DecidableEq, Repr

/-- A line `FMOP4A ZA<tile>.T, <first source>, <second source>` (R81), read but not yet checked. -/
structure AsmLine where
  tile : Nat
  suffix : ESize
  first : AsmSource
  second : AsmSource
  deriving DecidableEq, Repr

end Sys2Proof
end

