-- ==== Sys2Proof/Config.lean ====
section
/-! DEFINITION. What an implementation fixes (R6 to R10) and the free value of the model. -/

namespace Sys2Proof

/-- The vector lengths a run may have (R6, D2). -/
inductive VecLen where
  | vl128 | vl256 | vl512 | vl1024 | vl2048
  deriving DecidableEq, Repr

/-- `VL` in bits. -/
def VecLen.bits : VecLen → Nat
  | .vl128 => 128
  | .vl256 => 256
  | .vl512 => 512
  | .vl1024 => 1024
  | .vl2048 => 2048

/-- Which `FPMulAdd_ZA` the implementation has (R8, R142, D5; log 9). -/
inductive FPUnit where
  /-- The reference of R144 to R154. -/
  | reference
  /-- Some total function of the same shape, of which nothing but purity (P0) is known. -/
  | uninterpreted
  deriving DecidableEq, Repr

/-- The parameters of R10 that a run fixes and no step changes (log 1). -/
structure Params where
  /-- `CurrentVL` (R6) -/
  vl : VecLen
  /-- `IsFeatureImplemented(FEAT_SME_MOP4)` (R7) -/
  haveSME_MOP4 : Bool
  /-- `IsFeatureImplemented(FEAT_SME_F16F16)` (R7) -/
  haveSME_F16F16 : Bool
  /-- `IsFeatureImplemented(FEAT_SME_F64F64)` (R7) -/
  haveSME_F64F64 : Bool
  /-- SME instructions are permitted at the current privilege level (R9) -/
  smeAccessEnabled : Bool
  /-- the function `FPMulAdd_ZA` (R8) -/
  fpUnit : FPUnit
  deriving DecidableEq, Repr

/-- FREE VALUE (log 9). `FPMulAdd_ZA` of an implementation that is not assumed to be the reference: a total function of
addend, first-source element, second-source element and `FPCR` (R140, R142 P0), with no body. -/
opaque Config.fpMulAddZA (es : ESize) (addend op1 op2 : BitVec es.bits) (fpcr : BitVec 64) : BitVec es.bits

end Sys2Proof
end

