-- ==== Sys2Proof/WellFormed.lean ====
section
/-! DEFINITION. Which instructions, decoded records (R100) and assembler lines (R86) are legal. -/

namespace Sys2Proof

/-- `n ∈ 0, 2, …, 14` (R75, R100). -/
def firstSourceLegal (n : BitVec 5) : Bool := n.toNat % 2 == 0 && decide (n.toNat ≤ 14)

/-- `m ∈ 16, 18, …, 30` (R75, R100). -/
def secondSourceLegal (m : BitVec 5) : Bool := m.toNat % 2 == 0 && decide (16 ≤ m.toNat)

/-- An instruction some word encodes: both source operands legal. The tile number is in range by its width (R76). -/
def Instr.wf : Instr → Bool
  | .fmop4aHSingleMultiple _ n m => firstSourceLegal n && secondSourceLegal m
  | .fmop4aHSingle _ n m => firstSourceLegal n && secondSourceLegal m
  | .fmop4aHMultipleSingle _ n m => firstSourceLegal n && secondSourceLegal m
  | .fmop4aHMultiple _ n m => firstSourceLegal n && secondSourceLegal m
  | .fmop4aSSingleMultiple _ n m => firstSourceLegal n && secondSourceLegal m
  | .fmop4aSSingle _ n m => firstSourceLegal n && secondSourceLegal m
  | .fmop4aSMultipleSingle _ n m => firstSourceLegal n && secondSourceLegal m
  | .fmop4aSMultiple _ n m => firstSourceLegal n && secondSourceLegal m
  | .fmop4aDSingleMultiple _ n m => firstSourceLegal n && secondSourceLegal m
  | .fmop4aDSingle _ n m => firstSourceLegal n && secondSourceLegal m
  | .fmop4aDMultipleSingle _ n m => firstSourceLegal n && secondSourceLegal m
  | .fmop4aDMultiple _ n m => firstSourceLegal n && secondSourceLegal m

/-- The constraints R100 puts on a decoded record. -/
def Record.wf (r : Record) : Bool :=
  firstSourceLegal r.n && secondSourceLegal r.m && decide (r.da < r.esize.tiles) && !r.subOp

/-- Why an assembler refuses a line that has the form of a template (R86). -/
inductive AsmError where
  /-- The operands' element-size suffixes differ. -/
  | suffixesDiffer
  /-- The tile number is beyond the range for the element size. -/
  | tileOutOfRange
  /-- A first source outside `Z0`-`Z15`. -/
  | firstSourceOutOfRange
  /-- A second source outside `Z16`-`Z31`. -/
  | secondSourceOutOfRange
  /-- An odd register as `<Zn>`, `<Zn1>`, `<Zm>` or `<Zm1>`. -/
  | oddRegister
  /-- A pair whose second register is not the first plus one. -/
  | pairNotConsecutive
  deriving DecidableEq, Repr

/-- The register an operand's field is computed from. -/
def AsmSource.firstReg : AsmSource → Nat
  | .reg k _ => k
  | .pair k _ _ _ => k

/-- Every suffix of the operand is `es`. -/
def AsmSource.hasSuffix (es : ESize) : AsmSource → Bool
  | .reg _ a => a == es
  | .pair _ a _ b => a == es && b == es

/-- A pair is two consecutive registers, in order (R82). -/
def AsmSource.consecutive : AsmSource → Bool
  | .reg _ _ => true
  | .pair a _ b _ => b == a + 1

/-- The registers of the operand all lie in `lo..hi`. -/
def AsmSource.within (lo hi : Nat) : AsmSource → Bool
  | .reg a _ => decide (lo ≤ a) && decide (a ≤ hi)
  | .pair a _ b _ => decide (lo ≤ a) && decide (a ≤ hi) && decide (lo ≤ b) && decide (b ≤ hi)

/-- What an assembler must reject (R86); the order in which two faults of one line are reported is the model's. -/
def AsmLine.problem (l : AsmLine) : Option AsmError :=
  if !(l.first.hasSuffix l.suffix && l.second.hasSuffix l.suffix) then some .suffixesDiffer
  else if ¬ l.tile < l.suffix.tiles then some .tileOutOfRange
  else if !l.first.within 0 15 then some .firstSourceOutOfRange
  else if !l.second.within 16 31 then some .secondSourceOutOfRange
  else if l.first.firstReg % 2 = 1 ∨ l.second.firstReg % 2 = 1 then some .oddRegister
  else if !(l.first.consecutive && l.second.consecutive) then some .pairNotConsecutive
  else none

end Sys2Proof
end

