-- ==== Sys2Proof/Decode.lean ====
section
/-! DEFINITION. The word decoder (R70 to R80), the encoder (R86) and the decoded record (R77, R100). The bit layout is
general knowledge (GK11; PRESUMED, log 8): it stands in `encodingTable` and the four field functions only. -/

namespace Sys2Proof

/-- One encoding class (R74): the constants its decode sets (R77) and its match and mask. -/
structure EncodingClass where
  esize : ESize
  nreg : NumRegs
  mreg : NumRegs
  matchBits : Word
  mask : Word
  deriving DecidableEq, Repr

/-- The twelve classes of R74, in the table's order. -/
def encodingTable : List EncodingClass :=
  [ ⟨.h, .one, .two, 0x81100008#32, 0xFFF1FE3E#32⟩,
    ⟨.h, .one, .one, 0x81000008#32, 0xFFF1FE3E#32⟩,
    ⟨.h, .two, .one, 0x81000208#32, 0xFFF1FE3E#32⟩,
    ⟨.h, .two, .two, 0x81100208#32, 0xFFF1FE3E#32⟩,
    ⟨.s, .one, .two, 0x80100000#32, 0xFFF1FE3C#32⟩,
    ⟨.s, .one, .one, 0x80000000#32, 0xFFF1FE3C#32⟩,
    ⟨.s, .two, .one, 0x80000200#32, 0xFFF1FE3C#32⟩,
    ⟨.s, .two, .two, 0x80100200#32, 0xFFF1FE3C#32⟩,
    ⟨.d, .one, .two, 0x80D00008#32, 0xFFF1FE38#32⟩,
    ⟨.d, .one, .one, 0x80C00008#32, 0xFFF1FE38#32⟩,
    ⟨.d, .two, .one, 0x80C00208#32, 0xFFF1FE38#32⟩,
    ⟨.d, .two, .two, 0x80D00208#32, 0xFFF1FE38#32⟩ ]

/-- A word belongs to a class iff `(w AND mask) = match` (R74). -/
def EncodingClass.covers (c : EncodingClass) (w : Word) : Bool := w &&& c.mask == c.matchBits

/-- `Zm = instr[19:17]` (R72). -/
def fieldZm (w : Word) : BitVec 3 := w.extractLsb' 17 3

/-- `Zn = instr[8:6]` (R72). -/
def fieldZn (w : Word) : BitVec 3 := w.extractLsb' 6 3

/-- `ZAda`, the low 1, 2 or 3 bits (R72). -/
def fieldZAda (w : Word) (width : Nat) : BitVec width := w.extractLsb' 0 width

/-- The register number `'0':Zn:'0'` (R75). -/
def firstSourceNumber (zn : BitVec 3) : BitVec 5 := 0#1 ++ zn ++ 0#1

/-- The register number `'1':Zm:'0'` (R75). -/
def secondSourceNumber (zm : BitVec 3) : BitVec 5 := 1#1 ++ zm ++ 0#1

/-- The instruction of a word that belongs to the class (R75, R76, R77). -/
def EncodingClass.instr (c : EncodingClass) (w : Word) : Instr :=
  let n := firstSourceNumber (fieldZn w)
  let m := secondSourceNumber (fieldZm w)
  match c.esize, c.nreg, c.mreg with
  | .h, .one, .two => .fmop4aHSingleMultiple (fieldZAda w 1) n m
  | .h, .one, .one => .fmop4aHSingle (fieldZAda w 1) n m
  | .h, .two, .one => .fmop4aHMultipleSingle (fieldZAda w 1) n m
  | .h, .two, .two => .fmop4aHMultiple (fieldZAda w 1) n m
  | .s, .one, .two => .fmop4aSSingleMultiple (fieldZAda w 2) n m
  | .s, .one, .one => .fmop4aSSingle (fieldZAda w 2) n m
  | .s, .two, .one => .fmop4aSMultipleSingle (fieldZAda w 2) n m
  | .s, .two, .two => .fmop4aSMultiple (fieldZAda w 2) n m
  | .d, .one, .two => .fmop4aDSingleMultiple (fieldZAda w 3) n m
  | .d, .one, .one => .fmop4aDSingle (fieldZAda w 3) n m
  | .d, .two, .one => .fmop4aDMultipleSingle (fieldZAda w 3) n m
  | .d, .two, .two => .fmop4aDMultiple (fieldZAda w 3) n m

/-- The class match of R79: the instruction of the one class the word belongs to; `none` is `NotThisInstruction` (R80). -/
def decodeWord (w : Word) : Option Instr :=
  (encodingTable.find? (fun c => c.covers w)).map (fun c => c.instr w)

/-- Why bytes are no instruction of this hardware. -/
inductive DecodeError where
  /-- Fewer than the four bytes of a word. -/
  | truncated
  /-- A word outside the twelve classes (R80). -/
  | notThisInstruction
  deriving DecidableEq, Repr

/-- Four bytes, lowest address first, as a word: the byte at `pc` is `instr[7:0]` (R51). -/
def wordOfBytes (b0 b1 b2 b3 : Byte) : Word := b3 ++ b2 ++ b1 ++ b0

/-- The byte of the word at offset `k` from its address (R51). -/
def byteOfWord (w : Word) (k : Nat) : Byte := w.extractLsb' (8 * k) 8

/-- Decoding any bytes: the instruction of the first four and the bytes after it, or why there is none. -/
def decodeBytes : List Byte → Except DecodeError (Instr × List Byte)
  | b0 :: b1 :: b2 :: b3 :: rest =>
    match decodeWord (wordOfBytes b0 b1 b2 b3) with
    | some i => .ok (i, rest)
    | none => .error .notThisInstruction
  | _ => .error .truncated

/-- The instruction the decoder reads from the bits the opcode table numbers. -/
def decodeTableWord (nbits w : Nat) : Option Instr :=
  let word := BitVec.ofNat 32 (w % 2 ^ nbits)
  match decodeBytes [byteOfWord word 0, byteOfWord word 1, byteOfWord word 2, byteOfWord word 3] with
  | .ok (i, _) => some i
  | .error _ => none

/-- `match OR (Zm << 17) OR (Zn << 6) OR ZAda` (R86), the field values being those of R82: the register number's bits
3 to 1, and the tile number. -/
def assembleFields (matchBits : Word) (n m : BitVec 5) {w : Nat} (da : BitVec w) : Word :=
  matchBits ||| ((m.extractLsb' 1 3).setWidth 32 <<< 17) ||| ((n.extractLsb' 1 3).setWidth 32 <<< 6) ||| da.setWidth 32

/-- The word of an instruction (R86). -/
def encode : Instr → Word
  | .fmop4aHSingleMultiple da n m => assembleFields 0x81100008#32 n m da
  | .fmop4aHSingle da n m => assembleFields 0x81000008#32 n m da
  | .fmop4aHMultipleSingle da n m => assembleFields 0x81000208#32 n m da
  | .fmop4aHMultiple da n m => assembleFields 0x81100208#32 n m da
  | .fmop4aSSingleMultiple da n m => assembleFields 0x80100000#32 n m da
  | .fmop4aSSingle da n m => assembleFields 0x80000000#32 n m da
  | .fmop4aSMultipleSingle da n m => assembleFields 0x80000200#32 n m da
  | .fmop4aSMultiple da n m => assembleFields 0x80100200#32 n m da
  | .fmop4aDSingleMultiple da n m => assembleFields 0x80D00008#32 n m da
  | .fmop4aDSingle da n m => assembleFields 0x80C00008#32 n m da
  | .fmop4aDMultipleSingle da n m => assembleFields 0x80C00208#32 n m da
  | .fmop4aDMultiple da n m => assembleFields 0x80D00208#32 n m da

/-- The constants and operands each class's decode hands to the Operation (R77, R100, R101 to R112). -/
def Instr.record : Instr → Record
  | .fmop4aHSingleMultiple da n m => ⟨.h, n, m, .one, .two, da.toNat, false⟩
  | .fmop4aHSingle da n m => ⟨.h, n, m, .one, .one, da.toNat, false⟩
  | .fmop4aHMultipleSingle da n m => ⟨.h, n, m, .two, .one, da.toNat, false⟩
  | .fmop4aHMultiple da n m => ⟨.h, n, m, .two, .two, da.toNat, false⟩
  | .fmop4aSSingleMultiple da n m => ⟨.s, n, m, .one, .two, da.toNat, false⟩
  | .fmop4aSSingle da n m => ⟨.s, n, m, .one, .one, da.toNat, false⟩
  | .fmop4aSMultipleSingle da n m => ⟨.s, n, m, .two, .one, da.toNat, false⟩
  | .fmop4aSMultiple da n m => ⟨.s, n, m, .two, .two, da.toNat, false⟩
  | .fmop4aDSingleMultiple da n m => ⟨.d, n, m, .one, .two, da.toNat, false⟩
  | .fmop4aDSingle da n m => ⟨.d, n, m, .one, .one, da.toNat, false⟩
  | .fmop4aDMultipleSingle da n m => ⟨.d, n, m, .two, .one, da.toNat, false⟩
  | .fmop4aDMultiple da n m => ⟨.d, n, m, .two, .two, da.toNat, false⟩

/-- The features a class's decode tests (R78). -/
def featuresPresent (es : ESize) (p : Params) : Bool :=
  match es with
  | .h => p.haveSME_MOP4 && p.haveSME_F16F16
  | .s => p.haveSME_MOP4
  | .d => p.haveSME_MOP4 && p.haveSME_F64F64

/-- The three answers of the decode function of R79. -/
inductive Verdict where
  | notThisInstruction
  | undefined
  | fmop4a (r : Record)
  deriving DecidableEq, Repr

/-- The decode function of R79, total on words: the class match, then the features. -/
def decodeVerdict (p : Params) (w : Word) : Verdict :=
  match decodeWord w with
  | none => .notThisInstruction
  | some i => if featuresPresent i.record.esize p then .fmop4a i.record else .undefined

end Sys2Proof
end

