-- ==== Sys2Proof/Machine/Flags.lean ====
section
/-! DEFINITION. The fields of `FPCR` (R153; positions from general knowledge, GK14, PRESUMED, log 12). The hardware has no
condition flag and no floating-point status flag that the instruction writes (R28, R31, R152), so no flag is computed. -/

namespace Sys2Proof.Machine

/-- Rounding modes (R153). -/
inductive RMode where
  /-- to nearest, ties to even -/
  | rn
  /-- toward plus infinity -/
  | rp
  /-- toward minus infinity -/
  | rm
  /-- toward zero -/
  | rz
  deriving DecidableEq, Repr

/-- `RMode`, bits 23:22. -/
def fpcrRMode (fpcr : BitVec 64) : RMode :=
  match fpcr.getLsbD 23, fpcr.getLsbD 22 with
  | false, false => .rn
  | false, true => .rp
  | true, false => .rm
  | true, true => .rz

/-- `FZ`, bit 24: flush to zero for single and double precision. -/
def fpcrFZ (fpcr : BitVec 64) : Bool := fpcr.getLsbD 24

/-- `FZ16`, bit 19: flush to zero for half precision. -/
def fpcrFZ16 (fpcr : BitVec 64) : Bool := fpcr.getLsbD 19

/-- `AH`, bit 1: alternate handling (R154). -/
def fpcrAH (fpcr : BitVec 64) : Bool := fpcr.getLsbD 1

/-- `FIZ`, bit 0: flush inputs to zero. -/
def fpcrFIZ (fpcr : BitVec 64) : Bool := fpcr.getLsbD 0

/-- `fpcr` with `DN`, bit 25, forced on (R144). -/
def fpcrWithDN (fpcr : BitVec 64) : BitVec 64 := fpcr ||| (1#64 <<< 25)

end Sys2Proof.Machine
end

