-- ==== Sys2Proof/Machine/FpArith.lean ====
section
/-! DEFINITION. The arithmetic of one element: the formats (R143), the reference `FPMulAdd_ZA` (R144 to R154, general
knowledge, GK12 to GK14; PRESUMED, logs 9 to 12) and `FPNeg` (R156).

Exact values are fixed-point integers. The unit of a format is its smallest subnormal, `2^(1-bias-F) = 2^-Q` with
`Q = bias+F-1`: every finite value is a whole number of units, and every sum `addend + op1*op2` a whole number of
`2^-2Q`, so the sum of R149 is exact (DEDUCED, log 29). -/

namespace Sys2Proof.Machine

/-- `E`, the exponent bits of a format (R143). -/
def expBits : ESize → Nat
  | .h => 5
  | .s => 8
  | .d => 11

/-- `F`, the fraction bits of a format (R143). -/
def fracBits : ESize → Nat
  | .h => 10
  | .s => 23
  | .d => 52

/-- The exponent bias of a format (R143): 15, 127, 1023. -/
def expBias (es : ESize) : Nat := 2 ^ (expBits es - 1) - 1

/-- `Q`: the unit of a format's finite values is `2^-Q`, its smallest subnormal (R143). -/
def unitExp (es : ESize) : Nat := expBias es + fracBits es - 1

/-- What a value of a format stands for (R145). A finite non-zero magnitude is in units of `2^-Q`. -/
inductive FPValue where
  | zero (sign : Bool)
  | nonzero (sign : Bool) (magnitude : Nat)
  | infinity (sign : Bool)
  | quietNaN (sign : Bool)
  | signallingNaN (sign : Bool)
  deriving DecidableEq, Repr

/-- A value by the layout of R143, before any flushing. -/
def fpClassify (es : ESize) (x : BitVec es.bits) : FPValue :=
  let sign := x.msb
  let exponent := x.toNat / 2 ^ fracBits es % 2 ^ expBits es
  let fraction := x.toNat % 2 ^ fracBits es
  if exponent = 0 then
    if fraction = 0 then .zero sign else .nonzero sign fraction
  else if exponent = 2 ^ expBits es - 1 then
    if fraction = 0 then .infinity sign
    else if 2 ^ (fracBits es - 1) ≤ fraction then .quietNaN sign else .signallingNaN sign
  else .nonzero sign ((2 ^ fracBits es + fraction) * 2 ^ (exponent - 1))

/-- Whether subnormal arguments are flushed (R145, R154). -/
def inputFlush (es : ESize) (fpcr : BitVec 64) : Bool :=
  match es with
  | .h => fpcrFZ16 fpcr
  | .s => fpcrFIZ fpcr || (fpcrFZ fpcr && !fpcrAH fpcr)
  | .d => fpcrFIZ fpcr || (fpcrFZ fpcr && !fpcrAH fpcr)

/-- The flush bit of the format for results (R151). -/
def resultFlush (es : ESize) (fpcr : BitVec 64) : Bool :=
  match es with
  | .h => fpcrFZ16 fpcr
  | .s => fpcrFZ fpcr
  | .d => fpcrFZ fpcr

/-- Unpacking with input flushing (R145): a subnormal, a magnitude below `2^F` units, becomes a zero of its sign. -/
def fpUnpack (es : ESize) (x : BitVec es.bits) (fpcr : BitVec 64) : FPValue :=
  match fpClassify es x with
  | .nonzero sign magnitude =>
    if inputFlush es fpcr ∧ magnitude < 2 ^ fracBits es then .zero sign else .nonzero sign magnitude
  | v => v

def FPValue.isNaN : FPValue → Bool
  | .quietNaN _ => true
  | .signallingNaN _ => true
  | _ => false

def FPValue.isInfinity : FPValue → Bool
  | .infinity _ => true
  | _ => false

def FPValue.isZero : FPValue → Bool
  | .zero _ => true
  | _ => false

def FPValue.sign : FPValue → Bool
  | .zero s => s
  | .nonzero s _ => s
  | .infinity s => s
  | .quietNaN s => s
  | .signallingNaN s => s

/-- The finite value in units of `2^-Q` (zero for the classes that have none). -/
def FPValue.units : FPValue → Int
  | .nonzero s k => if s then -(k : Int) else (k : Int)
  | _ => 0

/-- The exponent and fraction fields of an infinity, as one number (R143). -/
def infinityField (es : ESize) : Nat := (2 ^ expBits es - 1) * 2 ^ fracBits es

/-- A sign and the number its exponent and fraction fields make, as a value of the format (R143). -/
def fpPack (es : ESize) (sign : Bool) (field : Nat) : BitVec es.bits :=
  BitVec.ofNat es.bits ((if sign then 2 ^ (es.bits - 1) else 0) + field)

/-- The default NaN (R146): fraction 1 followed by zeros; sign 0, or 1 when `AH = 1` (R154). -/
def defaultNaN (es : ESize) (fpcr : BitVec 64) : BitVec es.bits :=
  fpPack es (fpcrAH fpcr) (infinityField es + 2 ^ (fracBits es - 1))

/-- Whether the kept part `q` of a number of sign `neg` is incremented when `rest` of `2^cut` is cut off (R150). -/
def roundUp (mode : RMode) (neg : Bool) (q rest cut : Nat) : Bool :=
  match mode with
  | .rn => decide (2 ^ cut < 2 * rest) || (decide (2 * rest = 2 ^ cut) && decide (q % 2 = 1))
  | .rp => decide (rest ≠ 0) && !neg
  | .rm => decide (rest ≠ 0) && neg
  | .rz => false

/-- A magnitude with its low `cut` bits rounded off (R150). -/
def roundAt (mode : RMode) (neg : Bool) (k cut : Nat) : Nat :=
  k / 2 ^ cut + (if roundUp mode neg (k / 2 ^ cut) (k % 2 ^ cut) cut then 1 else 0)

/-- The result on overflow (R151). -/
def fpOverflow (es : ESize) (mode : RMode) (neg : Bool) : BitVec es.bits :=
  let toInfinity := match mode with
    | .rn => true
    | .rp => !neg
    | .rm => neg
    | .rz => false
  fpPack es neg (if toInfinity then infinityField es else infinityField es - 1)

/-- The bits cut off a magnitude in `2^-2Q` (R150): all but `F+1` significant ones, and never fewer than leave whole
units, where the result is subnormal. -/
def cutOf (es : ESize) (k : Nat) : Nat := max (Nat.log2 k - fracBits es) (unitExp es)

/-- Rounding with the exponent range of the format (R150, R151). The rounded number of `2^(cut-2Q)` is
`q ∈ 0 … 2^(F+1)`; `(cut-Q)*2^F + q` is its exponent and fraction fields, a carry out of the significand raising the
exponent of itself; a field of an infinity or above is an overflow. -/
def fpRoundFinite (es : ESize) (mode : RMode) (neg : Bool) (k : Nat) : BitVec es.bits :=
  let field := (cutOf es k - unitExp es) * 2 ^ fracBits es + roundAt mode neg k (cutOf es k)
  if infinityField es ≤ field then fpOverflow es mode neg else fpPack es neg field

/-- The magnitude rounded as if the exponent range were unbounded (R154), in `2^-2Q`. -/
def roundUnbounded (es : ESize) (mode : RMode) (neg : Bool) (k : Nat) : Nat :=
  roundAt mode neg k (Nat.log2 k - fracBits es) * 2 ^ (Nat.log2 k - fracBits es)

/-- Whether the result is flushed to zero: its magnitude, before rounding (`AH = 0`, R151) or after rounding with an
unbounded exponent (`AH = 1`, R154; UNVERIFIED, log 11), is below the smallest normal number, `2^(F+Q)` of `2^-2Q`. -/
def resultFlushed (es : ESize) (fpcr : BitVec 64) (neg : Bool) (k : Nat) : Bool :=
  resultFlush es fpcr &&
    (if fpcrAH fpcr then decide (roundUnbounded es (fpcrRMode fpcr) neg k < 2 ^ (fracBits es + unitExp es))
     else decide (k < 2 ^ (fracBits es + unitExp es)))

/-- `Round(v)` (R150, R151) for `v = ±k*2^-2Q`, `k > 0`. -/
def fpRound (es : ESize) (fpcr : BitVec 64) (neg : Bool) (k : Nat) : BitVec es.bits :=
  if resultFlushed es fpcr neg k then fpPack es neg 0 else fpRoundFinite es (fpcrRMode fpcr) neg k

/-- The exact sum `addend + op1*op2` of finite values (R149), in `2^-2Q`. -/
def exactSum (es : ESize) (a x y : FPValue) : Int := a.units * 2 ^ unitExp es + x.units * y.units

/-- The numerical case (R149). -/
def fpNumeric (es : ESize) (fpcr : BitVec 64) (a x y : FPValue) : BitVec es.bits :=
  let v := exactSum es a x y
  if v = 0 then fpPack es (fpcrRMode fpcr == .rm) 0 else fpRound es fpcr (decide (v < 0)) v.natAbs

/-- The sign of the product (R147). -/
def productSign (x y : FPValue) : Bool := xor x.sign y.sign

/-- Infinity times zero, or infinities of opposite sign added (R147). -/
def invalidOp (a x y : FPValue) : Bool :=
  (x.isInfinity && y.isZero) || (x.isZero && y.isInfinity) ||
    (a.isInfinity && (x.isInfinity || y.isInfinity) && (a.sign != productSign x y))

/-- The multiply-add on unpacked values, the cases in the order R146, R147, R148, R149. -/
def fpMulAddValues (es : ESize) (fpcr : BitVec 64) (a x y : FPValue) : BitVec es.bits :=
  if a.isNaN || x.isNaN || y.isNaN then defaultNaN es fpcr
  else if invalidOp a x y then defaultNaN es fpcr
  else if a.isInfinity then fpPack es a.sign (infinityField es)
  else if x.isInfinity || y.isInfinity then fpPack es (productSign x y) (infinityField es)
  else if a.isZero && (x.isZero || y.isZero) && (a.sign == productSign x y) then fpPack es a.sign 0
  else fpNumeric es fpcr a x y

/-- `FPMulAdd(addend, op1, op2, fpcr, fpexc = FALSE)` for an `fpcr` whose `DN` is 1 (R144): unpack, then the cases. It
signals nothing (R152). -/
def fpMulAdd (es : ESize) (addend op1 op2 : BitVec es.bits) (fpcr : BitVec 64) : BitVec es.bits :=
  fpMulAddValues es fpcr (fpUnpack es addend fpcr) (fpUnpack es op1 fpcr) (fpUnpack es op2 fpcr)

/-- The reference `FPMulAdd_ZA` (R144): `FPMulAdd` with `DN` forced to 1 and no exception signalled. -/
def fpMulAddReference (es : ESize) (addend op1 op2 : BitVec es.bits) (fpcr : BitVec 64) : BitVec es.bits :=
  fpMulAdd es addend op1 op2 (fpcrWithDN fpcr)

/-- `FPMulAdd_ZA(addend, op1, op2, FPCR)` of the implementation (R8, R140, R142; log 9). -/
def fpMulAddZA (unit : FPUnit) (es : ESize) (addend op1 op2 : BitVec es.bits) (fpcr : BitVec 64) : BitVec es.bits :=
  match unit with
  | .reference => fpMulAddReference es addend op1 op2 fpcr
  | .uninterpreted => Config.fpMulAddZA es addend op1 op2 fpcr

/-- `FPNeg(x, FPCR)` (R156): the sign inverted, but a NaN kept when `AH = 1`. Never evaluated by this instruction (R124;
log 25). -/
def fpNeg (es : ESize) (x : BitVec es.bits) (fpcr : BitVec 64) : BitVec es.bits :=
  if fpcrAH fpcr && (fpClassify es x).isNaN then x else x ^^^ fpPack es true 0

end Sys2Proof.Machine
end

