-- ==== Sys2Proof/Machine/Bits.lean ====
section
/-! DEFINITION. The pseudocode primitives on bitstrings and loops (R11 to R13). -/

namespace Sys2Proof.Machine

/-- `Elem[x, i, size]` read (R13): bits `(i+1)*size-1 : i*size`, element 0 least significant. -/
def elem {w : Nat} (x : BitVec w) (i size : Nat) : BitVec size := x.extractLsb' (i * size) size

/-- `Elem[x, i, size] = v` (R13): that substring replaced, every other bit as it was. -/
def setElem {w : Nat} (x : BitVec w) (i size : Nat) (v : BitVec size) : BitVec w :=
  (x &&& ~~~((BitVec.allOnes size).setWidth w <<< (i * size))) ||| (v.setWidth w <<< (i * size))

/-- `for v = 0 to count-1` (R12): the body for 0, 1, …, in that order, on the variable it assigns. -/
def forLoop {α : Type} : (count : Nat) → (body : Nat → α → α) → α → α
  | 0, _, a => a
  | k + 1, body, a => body k (forLoop k body a)

/-- Every entry of a list replaced by a function of its index (counted from `i`) and its value. -/
def mapFrom {α : Type} (f : Nat → α → α) : Nat → List α → List α
  | _, [] => []
  | i, x :: xs => f i x :: mapFrom f (i + 1) xs

theorem mapFrom_length {α : Type} (f : Nat → α → α) (i : Nat) (l : List α) : (mapFrom f i l).length = l.length := by
  induction l generalizing i with
  | nil => rfl
  | cons x xs ih => simp [mapFrom, ih]

/-- Every entry of a vector replaced by a function of its index and its value. -/
def mapVector {α : Type} {n : Nat} (f : Nat → α → α) (v : Vector α n) : Vector α n :=
  ⟨⟨mapFrom f 0 v.toList⟩, by simp [mapFrom_length]⟩

end Sys2Proof.Machine
end

