-- ==== Sys2Proof/Machine/Memory.lean ====
section
/-! DEFINITION. Program text: the bytes of the instruction words (R51, R57, R194). The hardware has no data memory
(R32, R50). The list holds (address, byte) pairs in one canonical form: addresses strictly rising, each below 2^64. An
unlisted address has no byte (log 15). -/

namespace Sys2Proof.Machine

/-- Bytes by address. -/
abbrev Memory := List Host.Cell

/-- The canonical form: addresses strictly rising and inside the 64-bit address space. No entry can equal what an
unlisted address reads as, since that is no byte at all. -/
abbrev Memory.wf (mem : Memory) : Prop := mem.Pairwise (fun a b => a.1 < b.1) ∧ ∀ c ∈ mem, c.1 < 2 ^ 64

/-- The byte at an address, `none` where nothing was placed. -/
def memRead : Memory → Nat → Option Byte
  | [], _ => none
  | (a, b) :: rest, addr => if addr = a then some b else memRead rest addr

/-- The byte placed at an address, in order, replacing what was there. -/
def memWrite : Memory → Nat → Byte → Memory
  | [], addr, v => [(addr, v)]
  | (a, b) :: rest, addr, v =>
    if addr < a then (addr, v) :: (a, b) :: rest
    else if addr = a then (a, v) :: rest
    else (a, b) :: memWrite rest addr v

end Sys2Proof.Machine
end

