-- ==== Sys2Proof/Machine/State.lean ====
section
/-! DEFINITION. The state record of R20 with the run's parameters (R10), the faults and refusals a step can end in
(R170), and the state after reset (R34, R190). -/

namespace Sys2Proof.Machine

/-- The machine's state: R20, the program text (R51, R57) and the parameters (R10, log 1). -/
structure State where
  /-- the parameters of the run; no step writes them -/
  params : Params
  /-- `Z0` to `Z31`; the low `VL` bits of each (R21, R22; log 6) -/
  z : Vector Vec 32
  /-- the ZA array vectors; the first `VL DIV 8`, the low `VL` bits of each (R23; log 6) -/
  za : Vector Vec maxVectors
  /-- `FPCR` (R26, R153) -/
  fpcr : BitVec 64
  /-- `PSTATE.SM` (R27) -/
  pstateSM : Bool
  /-- `PSTATE.ZA` (R27) -/
  pstateZA : Bool
  /-- the address of the instruction being executed (R29) -/
  pc : Addr
  /-- the program text (R57, R194) -/
  text : Memory
  deriving DecidableEq, Repr

/-- The reason an SME access trap reports (R172). -/
inductive TrapReason where
  /-- SME instructions are not permitted: `SMEAccessEnabled = FALSE`. -/
  | accessTrap
  /-- `PSTATE.SM = 0`. -/
  | notStreaming
  /-- `PSTATE.ZA = 0`. -/
  | inactiveZA
  deriving DecidableEq, Repr

/-- The two faults of the instruction (R129, R170). Both leave all state unchanged (R174) and end the run (R175, D9;
log 14). -/
inductive Fault where
  /-- Raised by a class's decode when a feature it tests is absent (R78, R171). Safe: the architecture raises an
  exception there too; what its handler does is not modelled. -/
  | undefined
  /-- Raised by the enable check at the start of the Operation (R115, R172). Safe as a stop; which reason is reported
  rests on general knowledge (GK7; log 13). -/
  | smeAccessTrap (reason : TrapReason)
  deriving DecidableEq, Repr

/-- Why a step is refused. -/
inductive Refusal where
  /-- An instruction without a meaning; no arm of this model answers with it. Safe. -/
  | notModelled (mnemonic : String)
  /-- Raised by the step on a word outside the twelve classes (R80, D18). Safe: nothing is proved about the word. -/
  | notThisInstruction
  /-- Raised by the fetch when `pc` is no multiple of 4 (R52, D12). Safe. -/
  | pcMisaligned
  /-- Raised by the fetch where no program word was placed (R180, R194). Safe. -/
  | noProgramWord
  deriving DecidableEq, Repr

/-- `pc` replaced. -/
def State.withPc (s : State) (pc : Addr) : State := { s with pc := pc }

/-- The ZA storage replaced. -/
def State.withZa (s : State) (za : Vector Vec maxVectors) : State := { s with za := za }

/-- The program text replaced; the host's means of placing a program, no instruction's (R57). -/
def State.withText (s : State) (text : Memory) : State := { s with text := text }

/-- The parameters at reset (DESIGN CHOICE, log 2): the smallest machine on which every class executes. -/
def Params.reset : Params :=
  { vl := .vl128, haveSME_MOP4 := true, haveSME_F16F16 := true, haveSME_F64F64 := true, smeAccessEnabled := true,
    fpUnit := .reference }

/-- The state after reset. The spec gives no reset value (R34, R190): `Z`, `ZA` and `FPCR` zero (DESIGN CHOICE, log 3),
`PSTATE.SM` and `PSTATE.ZA` zero (PRESUMED, the family's, R34 and GK10; log 4), `pc` zero (DESIGN CHOICE, log 5). -/
def State.reset : State :=
  { params := Params.reset, z := Vector.replicate 32 0, za := Vector.replicate maxVectors 0, fpcr := 0,
    pstateSM := false, pstateZA := false, pc := 0, text := [] }

end Sys2Proof.Machine
end

