-- ==== Sys2Proof/Machine/Operands.lean ====
section
/-! DEFINITION. The operand forms: a Z register (R22), an array vector and a tile of ZA (R23, R24), and the dimensions of
the Operation (R114). -/

namespace Sys2Proof.Machine

/-- `CurrentVL` (R6). -/
def currentVL (s : State) : Nat := s.params.vl.bits

/-- `dim = (VL DIV 2) DIV esize`, the side of a quarter-tile (R114). -/
def dimOf (vl : Nat) (es : ESize) : Nat := vl / 2 / es.bits

/-- `k = VL DIV esize`, the side of the tile (R114). -/
def sideOf (vl : Nat) (es : ESize) : Nat := vl / es.bits

/-- `tilesize = 4*dim*dim*esize` (R114). -/
def tileSize (vl : Nat) (es : ESize) : Nat := 4 * dimOf vl es * dimOf vl es * es.bits

/-- `Z[i, VL]`: the low `VL` bits of register `Zi` (R22). -/
def zRead (s : State) (i : BitVec 5) : BitVec (currentVL s) := (s.z.get i.toFin).setWidth (currentVL s)

/-- The number of the register `count-1` times `half` after register `first` (R117): `first` itself for a single source
or a half 0, the second register of the group for a half 1. It has five bits as register numbers have; a legal
operand's group never leaves them (R119, log 21). -/
def groupRegister (first : BitVec 5) (count half : Nat) : BitVec 5 := first + BitVec.ofNat 5 ((count - 1) * half)

/-- ZA array vector `i`, its low `VL` bits (R23). No tile has a row beyond the last one (R24; log 21). -/
def zaVector (s : State) (i : Nat) : BitVec (currentVL s) :=
  (if h : i < maxVectors then s.za[i] else 0).setWidth (currentVL s)

/-- The array vector that is row `r` of tile `t` (R24; PRESUMED, GK6, log 7). -/
def tileVector (es : ESize) (t r : Nat) : Nat := t + r * es.tiles

/-- `ZAtile[t, esize, tilesize]` read: the rows concatenated, row 0 least significant (R15, R24). -/
def zaTileRead (s : State) (t : Nat) (es : ESize) : BitVec (tileSize (currentVL s) es) :=
  forLoop (sideOf (currentVL s) es) (fun r acc => setElem acc r (currentVL s) (zaVector s (tileVector es t r))) 0

/-- Array vector `i` belongs to tile `t` of element size `es` (R24). -/
def inTile (vl : Nat) (es : ESize) (t i : Nat) : Bool := decide (i < vl / 8) && decide (i % es.tiles = t)

/-- `ZAtile[t, esize, tilesize] = v`: every bit of every row of the tile replaced, no other bit of ZA (R24). -/
def zaTileWrite (s : State) (t : Nat) (es : ESize) (v : BitVec (tileSize (currentVL s) es)) : Vector Vec maxVectors :=
  mapVector (fun i row =>
    if inTile (currentVL s) es t i then setElem row 0 (currentVL s) (elem v (i / es.tiles) (currentVL s)) else row) s.za

/-- Element `(r, c)` of tile `t`: element `c` of the array vector that is row `r` (R24). -/
def tileElem (s : State) (es : ESize) (t r c : Nat) : BitVec es.bits := elem (zaVector s (tileVector es t r)) c es.bits

/-- Element `j` of register `Zi` (R22). -/
def zElem (s : State) (es : ESize) (i : BitVec 5) (j : Nat) : BitVec es.bits := elem (zRead s i) j es.bits

end Sys2Proof.Machine
end

