-- ==== Sys2Proof/Machine/Ops.lean ====
section
/-! DEFINITION. The shared operations: raising a fault, the enable check (R172), fetching a word (R51, R52), and the
Operation of the instruction (R113) on a decoded record (R100). -/

namespace Sys2Proof.Machine

/-- What a step answers. -/
abbrev Answer := Host.Outcome State Fault Refusal

/-- Taking an exception. The spec describes no trap entry: no saved state, no vector, no mode; a fault ends the run and
leaves the state, `pc` included, as it was (R174, R175, R176, D9; log 14). -/
def raise (f : Fault) : Answer := .fault f

/-- What the architecture reports of a fault (R171, R172; general knowledge, GK7 and GK16, log 31): the exception class
and, of an SME access trap, `ISS.SMTC`. No state holds it. -/
def syndrome : Fault → BitVec 6 × Option (BitVec 3)
  | .undefined => (0b000000#6, none)
  | .smeAccessTrap .accessTrap => (0x1D#6, some 0b000#3)
  | .smeAccessTrap .notStreaming => (0x1D#6, some 0b010#3)
  | .smeAccessTrap .inactiveZA => (0x1D#6, some 0b011#3)

/-- `CheckStreamingSVEAndZAEnabled()`: the first reason that holds, in the order of R172; `none` when it returns. -/
def enableCheck (s : State) : Option TrapReason :=
  if !s.params.smeAccessEnabled then some .accessTrap
  else if !s.pstateSM then some .notStreaming
  else if !s.pstateZA then some .inactiveZA
  else none

/-- The word at `pc`, little-endian, or why there is none (R51, R52, R194; logs 15, 16). -/
def fetchWord (s : State) : Except Refusal Word :=
  if s.pc.toNat % 4 ≠ 0 then .error .pcMisaligned
  else
    match memRead s.text s.pc.toNat, memRead s.text (s.pc.toNat + 1), memRead s.text (s.pc.toNat + 2),
      memRead s.text (s.pc.toNat + 3) with
    | some b0, some b1, some b2, some b3 => .ok (wordOfBytes b0 b1 b2 b3)
    | _, _, _, _ => .error .noProgramWord

/-- A word's four bytes placed at an address, lowest first (R51); addresses are 64 bits and wrap, as `pc` does (R29). -/
def placeWord (mem : Memory) (addr : Addr) (w : Word) : Memory :=
  memWrite (memWrite (memWrite (memWrite mem addr.toNat (byteOfWord w 0)) (addr + 1).toNat (byteOfWord w 1))
    (addr + 2).toNat (byteOfWord w 2)) (addr + 3).toNat (byteOfWord w 3)

/-- `elem1` of R113: element `rowIdx` of the first-source register, negated when `sub_op`. -/
def firstElem (s : State) (r : Record) (op1 : BitVec (currentVL s)) (rowIdx : Nat) : BitVec r.esize.bits :=
  if r.subOp then fpNeg r.esize (elem op1 rowIdx r.esize.bits) s.fpcr else elem op1 rowIdx r.esize.bits

/-- The three loops of R113, on the local `result` (R117, R118); `op3` is the addend snapshot (R116). -/
def outerProducts (s : State) (r : Record) (op3 : BitVec (tileSize (currentVL s) r.esize))
    (result : BitVec (tileSize (currentVL s) r.esize)) : BitVec (tileSize (currentVL s) r.esize) :=
  let dim := dimOf (currentVL s) r.esize
  forLoop 4 (fun outprod result =>
    let rowHv := outprod / 2
    let colHv := outprod % 2
    let rowBase := rowHv * dim
    let colBase := colHv * dim
    let op1 := zRead s (groupRegister r.n r.nreg.count colHv)
    let op2 := zRead s (groupRegister r.m r.mreg.count rowHv)
    forLoop dim (fun row result =>
      forLoop dim (fun col result =>
        let rowIdx := rowBase + row
        let colIdx := colBase + col
        let tileIdx := rowIdx * dim * 2 + colIdx
        let elem1 := firstElem s r op1 rowIdx
        let elem2 := elem op2 colIdx r.esize.bits
        let elem3 := elem op3 tileIdx r.esize.bits
        setElem result tileIdx r.esize.bits (fpMulAddZA s.params.fpUnit r.esize elem3 elem1 elem2 s.fpcr)) result) result)
    result

/-- The Operation after its enable check (R113): snapshot, loops, write-back (R116 to R120). The uninitialised local
`result` starts at zero, which nothing observes (R119, U5; log 20). -/
def operation (s : State) (r : Record) : State :=
  s.withZa (zaTileWrite s r.da r.esize (outerProducts s r (zaTileRead s r.da r.esize) 0))

/-- `FMOP4A` on a decoded record: the feature test of its decode (R78), the enable check (R115), the Operation, and the
next instruction in sequence (R29, R126). The order is that of R173. -/
def fmop4a (r : Record) (s : State) : Answer :=
  if featuresPresent r.esize s.params then
    match enableCheck s with
    | some reason => raise (.smeAccessTrap reason)
    | none => .next ((operation s r).withPc (s.pc + 4))
  else raise .undefined

end Sys2Proof.Machine
end

