-- ==== Sys2Proof/Machine/Fmop4a.lean ====
section
/-! DEFINITION. The twelve meanings, one per encoding class (R101 to R112), each the shared operation on the record the
class's decode builds (R77, R100). -/

namespace Sys2Proof.Machine

/-- Half-precision, single and multiple vectors (R101). -/
def execFmop4aHSingleMultiple (da : BitVec 1) (n m : BitVec 5) (s : State) : Answer :=
  fmop4a ⟨.h, n, m, .one, .two, da.toNat, false⟩ s

/-- Half-precision, single vectors (R102). -/
def execFmop4aHSingle (da : BitVec 1) (n m : BitVec 5) (s : State) : Answer :=
  fmop4a ⟨.h, n, m, .one, .one, da.toNat, false⟩ s

/-- Half-precision, multiple and single vectors (R103). -/
def execFmop4aHMultipleSingle (da : BitVec 1) (n m : BitVec 5) (s : State) : Answer :=
  fmop4a ⟨.h, n, m, .two, .one, da.toNat, false⟩ s

/-- Half-precision, multiple vectors (R104). -/
def execFmop4aHMultiple (da : BitVec 1) (n m : BitVec 5) (s : State) : Answer :=
  fmop4a ⟨.h, n, m, .two, .two, da.toNat, false⟩ s

/-- Single-precision, single and multiple vectors (R105). -/
def execFmop4aSSingleMultiple (da : BitVec 2) (n m : BitVec 5) (s : State) : Answer :=
  fmop4a ⟨.s, n, m, .one, .two, da.toNat, false⟩ s

/-- Single-precision, single vectors (R106). -/
def execFmop4aSSingle (da : BitVec 2) (n m : BitVec 5) (s : State) : Answer :=
  fmop4a ⟨.s, n, m, .one, .one, da.toNat, false⟩ s

/-- Single-precision, multiple and single vectors (R107). -/
def execFmop4aSMultipleSingle (da : BitVec 2) (n m : BitVec 5) (s : State) : Answer :=
  fmop4a ⟨.s, n, m, .two, .one, da.toNat, false⟩ s

/-- Single-precision, multiple vectors (R108). -/
def execFmop4aSMultiple (da : BitVec 2) (n m : BitVec 5) (s : State) : Answer :=
  fmop4a ⟨.s, n, m, .two, .two, da.toNat, false⟩ s

/-- Double-precision, single and multiple vectors (R109). -/
def execFmop4aDSingleMultiple (da : BitVec 3) (n m : BitVec 5) (s : State) : Answer :=
  fmop4a ⟨.d, n, m, .one, .two, da.toNat, false⟩ s

/-- Double-precision, single vectors (R110). -/
def execFmop4aDSingle (da : BitVec 3) (n m : BitVec 5) (s : State) : Answer :=
  fmop4a ⟨.d, n, m, .one, .one, da.toNat, false⟩ s

/-- Double-precision, multiple and single vectors (R111). -/
def execFmop4aDMultipleSingle (da : BitVec 3) (n m : BitVec 5) (s : State) : Answer :=
  fmop4a ⟨.d, n, m, .two, .one, da.toNat, false⟩ s

/-- Double-precision, multiple vectors (R112). -/
def execFmop4aDMultiple (da : BitVec 3) (n m : BitVec 5) (s : State) : Answer :=
  fmop4a ⟨.d, n, m, .two, .two, da.toNat, false⟩ s

end Sys2Proof.Machine
end

