-- ==== Sys2Proof/Machine/Dispatch.lean ====
section
/-! DEFINITION. Which meaning each instruction has. -/

namespace Sys2Proof.Machine

def exec (i : Instr) (s : State) : Host.Outcome State Fault Refusal :=
  match i with
  | .fmop4aHSingleMultiple da n m => Sys2Proof.Machine.execFmop4aHSingleMultiple da n m s
  | .fmop4aHSingle da n m => Sys2Proof.Machine.execFmop4aHSingle da n m s
  | .fmop4aHMultipleSingle da n m => Sys2Proof.Machine.execFmop4aHMultipleSingle da n m s
  | .fmop4aHMultiple da n m => Sys2Proof.Machine.execFmop4aHMultiple da n m s
  | .fmop4aSSingleMultiple da n m => Sys2Proof.Machine.execFmop4aSSingleMultiple da n m s
  | .fmop4aSSingle da n m => Sys2Proof.Machine.execFmop4aSSingle da n m s
  | .fmop4aSMultipleSingle da n m => Sys2Proof.Machine.execFmop4aSMultipleSingle da n m s
  | .fmop4aSMultiple da n m => Sys2Proof.Machine.execFmop4aSMultiple da n m s
  | .fmop4aDSingleMultiple da n m => Sys2Proof.Machine.execFmop4aDSingleMultiple da n m s
  | .fmop4aDSingle da n m => Sys2Proof.Machine.execFmop4aDSingle da n m s
  | .fmop4aDMultipleSingle da n m => Sys2Proof.Machine.execFmop4aDMultipleSingle da n m s
  | .fmop4aDMultiple da n m => Sys2Proof.Machine.execFmop4aDMultiple da n m s

end Sys2Proof.Machine
end

