-- ==== Sys2Proof/Machine/Step.lean ====
section
/-! DEFINITION. One step: fetch, decode, execute (R170), and the host's placing of one instruction word. -/

namespace Sys2Proof.Machine

/-- The word at `pc` fetched (R51, R52), decoded (R79) and executed; a word outside the twelve classes is refused
(R80). -/
def step (s : State) : Host.Outcome State Fault Refusal :=
  match fetchWord s with
  | .error e => .refused e
  | .ok w =>
    match decodeWord w with
    | none => .refused .notThisInstruction
    | some i => exec i s

/-- The low `nbits` bits of `w` placed as the word at `pc`, nothing else changed (log 22). -/
def State.withFetchWord (s : State) (nbits w : Nat) : State :=
  s.withText (placeWord s.text s.pc (BitVec.ofNat 32 (w % 2 ^ nbits)))

end Sys2Proof.Machine
end

