-- ==== Sys2Proof/Machine/Assembler.lean ====
section
/-! DEFINITION. The assembler and disassembler on parsed lines (R81 to R83, R86; log 26). No step uses them. -/

namespace Sys2Proof.Machine

/-- Whether an operand is one register or a pair: `nreg` or `mreg` (R81). -/
def sourceShape : AsmSource → NumRegs
  | .reg _ _ => .one
  | .pair _ _ _ _ => .two

/-- The instruction a legal line stands for: the template is chosen by the suffix and the shapes of the two sources
(R81). -/
def lineInstr (l : AsmLine) : Instr :=
  let n := BitVec.ofNat 5 l.first.firstReg
  let m := BitVec.ofNat 5 l.second.firstReg
  match l.suffix, sourceShape l.first, sourceShape l.second with
  | .h, .one, .two => .fmop4aHSingleMultiple (BitVec.ofNat 1 l.tile) n m
  | .h, .one, .one => .fmop4aHSingle (BitVec.ofNat 1 l.tile) n m
  | .h, .two, .one => .fmop4aHMultipleSingle (BitVec.ofNat 1 l.tile) n m
  | .h, .two, .two => .fmop4aHMultiple (BitVec.ofNat 1 l.tile) n m
  | .s, .one, .two => .fmop4aSSingleMultiple (BitVec.ofNat 2 l.tile) n m
  | .s, .one, .one => .fmop4aSSingle (BitVec.ofNat 2 l.tile) n m
  | .s, .two, .one => .fmop4aSMultipleSingle (BitVec.ofNat 2 l.tile) n m
  | .s, .two, .two => .fmop4aSMultiple (BitVec.ofNat 2 l.tile) n m
  | .d, .one, .two => .fmop4aDSingleMultiple (BitVec.ofNat 3 l.tile) n m
  | .d, .one, .one => .fmop4aDSingle (BitVec.ofNat 3 l.tile) n m
  | .d, .two, .one => .fmop4aDMultipleSingle (BitVec.ofNat 3 l.tile) n m
  | .d, .two, .two => .fmop4aDMultiple (BitVec.ofNat 3 l.tile) n m

/-- The word of a line, or why the assembler rejects it (R86). -/
def assemble (l : AsmLine) : Except AsmError Word :=
  match l.problem with
  | some e => .error e
  | none => .ok (encode (lineInstr l))

/-- A source operand of a decoded record as a template writes it (R75, R82). -/
def disassembleSource (es : ESize) (count : NumRegs) (first : BitVec 5) : AsmSource :=
  match count with
  | .one => .reg first.toNat es
  | .two => .pair first.toNat es (first.toNat + 1) es

/-- The line a disassembler prints: the template of the instruction's class with the register and tile numbers of R75
and R76 (R83). -/
def disassemble (i : Instr) : AsmLine :=
  let r := i.record
  { tile := r.da, suffix := r.esize, first := disassembleSource r.esize r.nreg r.n,
    second := disassembleSource r.esize r.mreg r.m }

/-- The letter of an element size (R81). -/
def suffixText : ESize → String
  | .h => ".H"
  | .s => ".S"
  | .d => ".D"

/-- An operand's text. The braces of a group are the characters 123 and 125. -/
def sourceText : AsmSource → String
  | .reg k es => "Z" ++ Nat.repr k ++ suffixText es
  | .pair a ea b eb =>
    String.singleton (Char.ofNat 123) ++ " Z" ++ Nat.repr a ++ suffixText ea ++ "-Z" ++ Nat.repr b ++ suffixText eb ++
      " " ++ String.singleton (Char.ofNat 125)

/-- The line's text, spaced as the templates of R81 are. -/
def lineText (l : AsmLine) : String :=
  "FMOP4A ZA" ++ Nat.repr l.tile ++ suffixText l.suffix ++ ", " ++ sourceText l.first ++ ", " ++ sourceText l.second

end Sys2Proof.Machine
end

