-- ==== Sys2Proof/Machine/Program.lean ====
section
/-! DEFINITION. What a program is, how it is run, and when its run is final (R194, D23; log 28). -/

namespace Sys2Proof.Machine

/-- A list of words placed at `base`, `base+4`, …, addresses modulo 2^64 as `pc` is (R194, R29). -/
def placeProgram (mem : Memory) (base : Addr) : List Word → Memory
  | [] => mem
  | w :: ws => placeProgram (placeWord mem base w) (base + 4) ws

/-- A start state of a program: its words are the text, and `pc = base` (R194). -/
def startProgram (s : State) (base : Addr) (ws : List Word) : State :=
  (s.withText (placeProgram [] base ws)).withPc base

/-- The run of a program of `len` words from `base` is final here (R194, D23). -/
abbrev Final (base : Addr) (len : Nat) (s : State) : Prop := s.pc = base + BitVec.ofNat 64 (4 * len)

/-- How a run ends (R194): final, or not final with the fault or refusal that ended it; `unfinished` when the steps
allowed are used up. -/
inductive ProgramEnd where
  | final (s : State)
  | faulted (f : Fault)
  | refused (r : Refusal)
  | unfinished (s : State)
  deriving DecidableEq, Repr

/-- The run of a program of `len` words from `base`, of at most `fuel` steps: it ends, as final, when `pc` is the
address past the last word; a fault or a refusal ends it as not final (R194). -/
def runProgram (base : Addr) (len fuel : Nat) (s : State) : ProgramEnd :=
  match fuel with
  | 0 => if Final base len s then .final s else .unfinished s
  | fuel + 1 =>
    if Final base len s then .final s
    else
      match step s with
      | .next t => runProgram base len fuel t
      | .fault f => .faulted f
      | .refused r => .refused r

/-- The words of a list decoded and executed in order, each on the state the one before it left (R192), with no fetch: what
a run of the program comes to. -/
def runWords : List Word → State → ProgramEnd
  | [], s => .final s
  | w :: ws, s =>
    match decodeWord w with
    | none => .refused .notThisInstruction
    | some i =>
      match exec i s with
      | .next t => runWords ws t
      | .fault f => .faulted f
      | .refused r => .refused r

end Sys2Proof.Machine
end

