-- ==== Sys2Proof/Safety.lean ====
section
/-! DEFINITION. The terms claims use: when an instruction is ready to complete (R191), the update of a tile (R121), the frame
of an instruction (R35), the invariant of the state's form, and the real value of a floating-point number (R143). -/

namespace Sys2Proof

open Sys2Proof.Machine

/-- The enable check of the Operation returns (R172). -/
abbrev Enabled (s : State) : Prop := s.params.smeAccessEnabled = true ∧ s.pstateSM = true ∧ s.pstateZA = true

/-- R191 items 1 and 2: the features of the element size are there and the enable check returns. -/
abbrev Ready (es : ESize) (s : State) : Prop := featuresPresent es s.params = true ∧ Enabled s

/-- A word placed at `pc`, which is a multiple of 4 (R51, R52). -/
abbrev WordAtPc (s : State) (w : Word) : Prop :=
  s.pc.toNat % 4 = 0 ∧ ∀ k < 4, memRead s.text (s.pc.toNat + k) = some (byteOfWord w k)

/-- The side `k` of the tiles of an element size in this state (R114). -/
abbrev side (s : State) (es : ESize) : Nat := sideOf (currentVL s) es

/-- The block row or block column, 0 or 1, of a tile coordinate: `r DIV dim`, `c DIV dim` (R121). -/
abbrev block (s : State) (es : ESize) (x : Nat) : Nat := x / dimOf (currentVL s) es

/-- Every element of tile `da` is the multiply-add of its old value, element `r` of the first-source register
`first (C)` for the block column `C`, and element `c` of the second-source register `second (R)` for the block row `R`
(R121). -/
abbrev TileUpdated (es : ESize) (da : Nat) (first second : Nat → BitVec 5) (s t : State) : Prop :=
  ∀ r c, r < side s es → c < side s es →
    tileElem t es da r c =
      fpMulAddZA s.params.fpUnit es (tileElem s es da r c) (zElem s es (first (block s es c)) r)
        (zElem s es (second (block s es r)) c) s.fpcr

/-- Everything but ZA and `pc` is as it was (R35): `Z`, `FPCR`, `PSTATE.SM`, `PSTATE.ZA`, the text, the parameters. -/
abbrev SameElsewhere (s t : State) : Prop :=
  t.z = s.z ∧ t.fpcr = s.fpcr ∧ t.pstateSM = s.pstateSM ∧ t.pstateZA = s.pstateZA ∧ t.text = s.text ∧ t.params = s.params

/-- Every bit of ZA outside tile `da` of element size `es` is as it was (R35): array vectors of other tiles whole, and
of the tile's own the storage above `VL`. -/
abbrev SameOutsideTile (es : ESize) (da : Nat) (s t : State) : Prop :=
  ∀ (i : Fin maxVectors) (b : Nat),
    ¬ (i.val < currentVL s / 8 ∧ i.val % es.tiles = da ∧ b < currentVL s) → t.za[i].getLsbD b = s.za[i].getLsbD b

/-- The instruction completes with its whole effect and no other: the tile's new value, the next `pc`, the frame. -/
abbrev Completes (i : Instr) (es : ESize) (da : Nat) (first second : Nat → BitVec 5) (s : State) : Prop :=
  ∃ t, exec i s = .next t ∧ TileUpdated es da first second s t ∧ t.pc = s.pc + 4 ∧ SameElsewhere s t ∧
    SameOutsideTile es da s t

/-- The second register of a group when the block is 1, else the first (R117). -/
abbrev pairOf (first : BitVec 5) (blk : Nat) : BitVec 5 := if blk = 0 then first else first + 1

/-- The bits of a vector's storage above `VL` are zero, and so is what lies beyond the `VL DIV 8` array vectors: the
storage holds the spec's `VL` bits per register and `VL*VL` bits of ZA and nothing else (R22, R23; log 6). -/
abbrev UnusedBitsZero (s : State) : Prop :=
  (∀ i : Fin 32, s.z[i].toNat < 2 ^ currentVL s) ∧ (∀ i : Fin maxVectors, s.za[i].toNat < 2 ^ currentVL s) ∧
    ∀ i : Fin maxVectors, currentVL s / 8 ≤ i.val → s.za[i] = 0

/-- The form of a state that every step keeps: canonical text, aligned `pc` (R29), no bit outside the spec's storage. -/
abbrev Inv (s : State) : Prop := Memory.wf s.text ∧ s.pc.toNat % 4 = 0 ∧ UnusedBitsZero s

/-- A finite number: a zero or a non-zero number of the format (R143). -/
abbrev IsFinite (v : FPValue) : Prop := v.isNaN = false ∧ v.isInfinity = false

/-- A normal number or a zero: not subnormal, not infinite, no NaN (R142 P1). -/
abbrev IsNotSubnormal (es : ESize) (v : FPValue) : Prop :=
  IsFinite v ∧ (v.isZero = true ∨ 2 ^ fracBits es ≤ v.units.natAbs)

/-- The real value of a finite number by the layout of R143: `±fraction*2^(1-bias-F)` with exponent field zero, else
`±(1+fraction*2^-F)*2^(exponent-bias)`. -/
def layoutValue (es : ESize) (x : BitVec es.bits) : ℚ :=
  let exponent := x.toNat / 2 ^ fracBits es % 2 ^ expBits es
  let fraction := x.toNat % 2 ^ fracBits es
  (if x.msb then -1 else 1) *
    (if exponent = 0 then (fraction : ℚ) * 2 ^ (1 - (expBias es : ℤ) - fracBits es)
     else (1 + (fraction : ℚ) / 2 ^ fracBits es) * 2 ^ ((exponent : ℤ) - expBias es))

/-- The argument as R145 replaces it: a subnormal becomes the zero of its sign when input flushing applies. -/
def flushedInput (es : ESize) (x : BitVec es.bits) (fpcr : BitVec 64) : BitVec es.bits :=
  if inputFlush es fpcr ∧ x.toNat / 2 ^ fracBits es % 2 ^ expBits es = 0 then fpPack es x.msb 0 else x

/-- The tile index of an iteration `(outprod, row, col)` of R113. -/
abbrev tileIndex (dim : Nat) (it : Nat × Nat × Nat) : Nat :=
  (it.1 / 2 * dim + it.2.1) * dim * 2 + (it.1 % 2 * dim + it.2.2)

/-- The iterations of the three loops, in the order of R113. -/
def iterations (dim : Nat) : List (Nat × Nat × Nat) :=
  (List.range 4).flatMap fun o => (List.range dim).flatMap fun row => (List.range dim).map fun col => (o, row, col)

/-- The body of the innermost loop of R113 for one iteration. -/
def iterationBody (s : State) (r : Record) (op3 : BitVec (tileSize (currentVL s) r.esize)) (it : Nat × Nat × Nat)
    (result : BitVec (tileSize (currentVL s) r.esize)) : BitVec (tileSize (currentVL s) r.esize) :=
  let dim := dimOf (currentVL s) r.esize
  let rowIdx := it.1 / 2 * dim + it.2.1
  let colIdx := it.1 % 2 * dim + it.2.2
  setElem result (tileIndex dim it) r.esize.bits
    (fpMulAddZA s.params.fpUnit r.esize (elem op3 (tileIndex dim it) r.esize.bits)
      (firstElem s r (zRead s (groupRegister r.n r.nreg.count (it.1 % 2))) rowIdx)
      (zElem s r.esize (groupRegister r.m r.mreg.count (it.1 / 2)) colIdx) s.fpcr)

end Sys2Proof
end

