-- ==== Sys2Proof/Certificates/Slice0/Obligations.lean ====
section
/-! DEFINITION. The statements for the provers. Each docstring names the rules of spec/ it formalises. What rests on general
knowledge (the bit layout GK11, the ZA placing GK6, the enable check GK7, the reference arithmetic GK12 to GK14) or on the
model's own choices is said there with the log entry. -/

open Sys2Proof Sys2Proof.Machine

/-! ### Encoding and decode -/

/-- R72, R74, R82, R86 (layout PRESUMED, log 8): decoding the word of a well-formed instruction gives it back, with every
operand at every value. -/
def Obligations.DecodeOfEncode : Prop := ∀ i : Instr, i.wf = true → decodeWord (encode i) = some i

/-- R74, R80, R86 (log 8): a word that decodes is the word of what it decodes to, and that is well-formed: no bit of the
word is ignored, and no two words are one instruction. -/
def Obligations.EncodeOfDecode : Prop := ∀ (w : Word) (i : Instr), decodeWord w = some i → encode i = w ∧ i.wf = true

/-- R74 (log 8): at most one class matches a word. -/
def Obligations.ClassesPairwiseDisjoint : Prop :=
  ∀ w : Word, ∀ c ∈ encodingTable, ∀ d ∈ encodingTable, c.covers w = true → d.covers w = true → c = d

/-- R71, R75, R76, R77, R84 (positions R72 PRESUMED, log 8): in every class every value of `Zm`, `Zn` and `ZAda` is an
instruction, with `n = 2*Zn`, `m = 16 + 2*Zm`, `da = ZAda`, the class's constants and `sub_op = FALSE`. -/
def Obligations.EveryFieldValueDecodes : Prop :=
  ∀ c ∈ encodingTable, ∀ zm zn zada : Nat, zm < 8 → zn < 8 → zada < c.esize.tiles →
    ∃ i, decodeWord (c.matchBits ||| (BitVec.ofNat 32 zm <<< 17) ||| (BitVec.ofNat 32 zn <<< 6) ||| BitVec.ofNat 32 zada) =
        some i ∧
      i.record = { esize := c.esize, n := BitVec.ofNat 5 (2 * zn), m := BitVec.ofNat 5 (16 + 2 * zm), nreg := c.nreg,
                   mreg := c.mreg, da := zada, subOp := false }

/-- R100: what decode hands over is a legal record, and nothing else of the word reaches the Operation: two words with
the same record execute alike. -/
def Obligations.DecodedRecordIsLegalAndAll : Prop :=
  ∀ w i, decodeWord w = some i →
    (i.record.esize = .h ∨ i.record.esize = .s ∨ i.record.esize = .d) ∧
    (i.record.n.toNat % 2 = 0 ∧ i.record.n.toNat ≤ 14) ∧ (i.record.m.toNat % 2 = 0 ∧ 16 ≤ i.record.m.toNat) ∧
    (i.record.nreg.count = 1 ∨ i.record.nreg.count = 2) ∧ (i.record.mreg.count = 1 ∨ i.record.mreg.count = 2) ∧
    i.record.da < i.record.esize.bits / 8 ∧ i.record.subOp = false ∧
    ∀ w' i', decodeWord w' = some i' → i'.record = i.record → ∀ s, exec i' s = exec i s

/-- R101 to R112 (log 8): the example word of each class decodes to the instruction its line shows, and its four bytes in
memory, lowest address first, decode alike (R51). -/
def Obligations.ExampleWordsDecode : Prop :=
  (decodeWord 0x81100008#32 = some (.fmop4aHSingleMultiple 0 0 16) ∧ decodeWord 0x81000009#32 = some (.fmop4aHSingle 1 0 16) ∧
    decodeWord 0x81000208#32 = some (.fmop4aHMultipleSingle 0 0 16) ∧ decodeWord 0x81100208#32 = some (.fmop4aHMultiple 0 0 16)) ∧
  (decodeWord 0x80120042#32 = some (.fmop4aSSingleMultiple 2 2 18) ∧ decodeWord 0x80000000#32 = some (.fmop4aSSingle 0 0 16) ∧
    decodeWord 0x80020243#32 = some (.fmop4aSMultipleSingle 3 2 18) ∧ decodeWord 0x80120241#32 = some (.fmop4aSMultiple 1 2 18)) ∧
  (decodeWord 0x80DE01C8#32 = some (.fmop4aDSingleMultiple 0 14 30) ∧ decodeWord 0x80CE01C8#32 = some (.fmop4aDSingle 0 14 30) ∧
    decodeWord 0x80CE03C8#32 = some (.fmop4aDMultipleSingle 0 14 30) ∧ decodeWord 0x80DE03CD#32 = some (.fmop4aDMultiple 5 14 30)) ∧
  (decodeBytes [0x08#8, 0x00#8, 0x10#8, 0x81#8] = .ok (.fmop4aHSingleMultiple 0 0 16, []) ∧
    decodeBytes [0x09#8, 0x00#8, 0x00#8, 0x81#8] = .ok (.fmop4aHSingle 1 0 16, []) ∧
    decodeBytes [0x08#8, 0x02#8, 0x00#8, 0x81#8] = .ok (.fmop4aHMultipleSingle 0 0 16, []) ∧
    decodeBytes [0x08#8, 0x02#8, 0x10#8, 0x81#8] = .ok (.fmop4aHMultiple 0 0 16, [])) ∧
  (decodeBytes [0x42#8, 0x00#8, 0x12#8, 0x80#8] = .ok (.fmop4aSSingleMultiple 2 2 18, []) ∧
    decodeBytes [0x00#8, 0x00#8, 0x00#8, 0x80#8] = .ok (.fmop4aSSingle 0 0 16, []) ∧
    decodeBytes [0x43#8, 0x02#8, 0x02#8, 0x80#8] = .ok (.fmop4aSMultipleSingle 3 2 18, []) ∧
    decodeBytes [0x41#8, 0x02#8, 0x12#8, 0x80#8] = .ok (.fmop4aSMultiple 1 2 18, [])) ∧
  decodeBytes [0xC8#8, 0x01#8, 0xDE#8, 0x80#8] = .ok (.fmop4aDSingleMultiple 0 14 30, []) ∧
    decodeBytes [0xC8#8, 0x01#8, 0xCE#8, 0x80#8] = .ok (.fmop4aDSingle 0 14 30, []) ∧
    decodeBytes [0xC8#8, 0x03#8, 0xCE#8, 0x80#8] = .ok (.fmop4aDMultipleSingle 0 14 30, []) ∧
    decodeBytes [0xCD#8, 0x03#8, 0xDE#8, 0x80#8] = .ok (.fmop4aDMultiple 5 14 30, [])

/-- R80: a word outside the twelve classes is refused as not this instruction; in particular a word that differs from one
of a class in `instr[4]` alone is outside them all. -/
def Obligations.OtherWordsRefused : Prop :=
  (∀ s w, WordAtPc s w → (∀ c ∈ encodingTable, w &&& c.mask ≠ c.matchBits) → step s = .refused .notThisInstruction) ∧
    ∀ w, ∀ c ∈ encodingTable, c.covers w = true → ∀ d ∈ encodingTable, d.covers (w ^^^ 0x10#32) = false

/-! ### Fetch and step -/

/-- R51, R79, R170: a step runs the instruction that the word at `pc` decodes to, and adds nothing around it. -/
def Obligations.StepRunsDecodedInstruction : Prop :=
  ∀ s w i, WordAtPc s w → decodeWord w = some i → step s = exec i s

/-- R79, R170, R173: one step of the word at `pc` has exactly the outcome of the decode function's verdict and, for an
instruction, of the enable check: refused, undefined, trapped, or completed. -/
def Obligations.StepFollowsVerdict : Prop :=
  ∀ s w, WordAtPc s w →
    match decodeVerdict s.params w with
    | .notThisInstruction => step s = .refused .notThisInstruction
    | .undefined => step s = .fault .undefined
    | .fmop4a _ =>
      match enableCheck s with
      | some why => step s = .fault (.smeAccessTrap why)
      | none => ∃ t, step s = .next t

/-- R52 (D12): a step with a `pc` that is no multiple of 4 is refused; so is one where no whole word was placed (the
model's choice, log 15). -/
def Obligations.FetchRefusals : Prop :=
  (∀ s : State, s.pc.toNat % 4 ≠ 0 → step s = .refused .pcMisaligned) ∧
    ∀ s : State, s.pc.toNat % 4 = 0 → (∃ k < 4, memRead s.text (s.pc.toNat + k) = none) → step s = .refused .noProgramWord

/-- R51, R57, R194 (byte order D12): an instruction placed at an aligned `pc` is the next one to run, the text keeps its
canonical form, and every byte outside the four is as it was. -/
def Obligations.PlacedWordRunsNext : Prop :=
  ∀ (s : State) (w : Word) (i : Instr), Memory.wf s.text → s.pc.toNat % 4 = 0 → decodeWord w = some i →
    step (s.withFetchWord 32 w.toNat) = exec i (s.withFetchWord 32 w.toNat) ∧
    Memory.wf (s.withFetchWord 32 w.toNat).text ∧
    ∀ a, (a < s.pc.toNat ∨ s.pc.toNat + 4 ≤ a) → memRead (s.withFetchWord 32 w.toNat).text a = memRead s.text a

/-! ### Faults -/

/-- R78: the features each precision's decode tests; when one is absent the outcome is `Undefined` whatever `PSTATE.SM`,
`PSTATE.ZA` and every other part of the state hold, and there is no next state. -/
def Obligations.MissingFeatureIsUndefined : Prop :=
  ∀ (i : Instr) (s : State),
    (i.record.esize = .h →
      (exec i s = .fault .undefined ↔ s.params.haveSME_MOP4 = false ∨ s.params.haveSME_F16F16 = false)) ∧
    (i.record.esize = .s → (exec i s = .fault .undefined ↔ s.params.haveSME_MOP4 = false)) ∧
    (i.record.esize = .d →
      (exec i s = .fault .undefined ↔ s.params.haveSME_MOP4 = false ∨ s.params.haveSME_F64F64 = false))

/-- R172, R173 (reasons and their order PRESUMED, GK7, log 13): with the features present, the first of the three
conditions that fails is the trap reported. -/
def Obligations.EnableCheckReasons : Prop :=
  ∀ (i : Instr) (s : State), featuresPresent i.record.esize s.params = true →
    (s.params.smeAccessEnabled = false → exec i s = .fault (.smeAccessTrap .accessTrap)) ∧
    (s.params.smeAccessEnabled = true → s.pstateSM = false → exec i s = .fault (.smeAccessTrap .notStreaming)) ∧
    (s.params.smeAccessEnabled = true → s.pstateSM = true → s.pstateZA = false →
      exec i s = .fault (.smeAccessTrap .inactiveZA))

/-- R170, R191 items 1 and 2: an instruction completes exactly when its features are there, SME use is permitted,
Streaming SVE mode is on and ZA is on; no operand value and no `FPCR` ends it otherwise (R179, R180). -/
def Obligations.CompletesExactlyWhenReady : Prop :=
  ∀ (i : Instr) (s : State), (∃ t, exec i s = .next t) ↔ Ready i.record.esize s

/-- R171, R172 (general knowledge, GK7 and GK16, log 31): the exception class and `SMTC` of each fault. -/
def Obligations.FaultSyndromes : Prop :=
  syndrome .undefined = (0b000000#6, none) ∧ syndrome (.smeAccessTrap .accessTrap) = (0x1D#6, some 0b000#3) ∧
    syndrome (.smeAccessTrap .notStreaming) = (0x1D#6, some 0b010#3) ∧
    syndrome (.smeAccessTrap .inactiveZA) = (0x1D#6, some 0b011#3)

/-! ### The instructions' effect -/

/-- R102, R106, R110, R122 row 1: single vectors. With the features and enables, the instruction completes, every tile
element gets the multiply-add of `Zn[r]` and `Zm[c]`, `pc` the next address (R126), and nothing else changes (R35). -/
def Obligations.SingleVectorsComplete : Prop :=
  ∀ (s : State) (n m : BitVec 5), firstSourceLegal n = true → secondSourceLegal m = true →
    (∀ da, Ready .h s → Completes (.fmop4aHSingle da n m) .h da.toNat (fun _ => n) (fun _ => m) s) ∧
    (∀ da, Ready .s s → Completes (.fmop4aSSingle da n m) .s da.toNat (fun _ => n) (fun _ => m) s) ∧
    (∀ da, Ready .d s → Completes (.fmop4aDSingle da n m) .d da.toNat (fun _ => n) (fun _ => m) s)

/-- R101, R105, R109, R122 row 2: single and multiple vectors. As above, the top rows with `Zm1`, the bottom rows with
`Zm2`. -/
def Obligations.SingleAndMultipleVectorsComplete : Prop :=
  ∀ (s : State) (n m : BitVec 5), firstSourceLegal n = true → secondSourceLegal m = true →
    (∀ da, Ready .h s → Completes (.fmop4aHSingleMultiple da n m) .h da.toNat (fun _ => n) (pairOf m) s) ∧
    (∀ da, Ready .s s → Completes (.fmop4aSSingleMultiple da n m) .s da.toNat (fun _ => n) (pairOf m) s) ∧
    (∀ da, Ready .d s → Completes (.fmop4aDSingleMultiple da n m) .d da.toNat (fun _ => n) (pairOf m) s)

/-- R103, R107, R111, R122 row 3: multiple and single vectors. The left columns with `Zn1`, the right columns with
`Zn2`. -/
def Obligations.MultipleAndSingleVectorsComplete : Prop :=
  ∀ (s : State) (n m : BitVec 5), firstSourceLegal n = true → secondSourceLegal m = true →
    (∀ da, Ready .h s → Completes (.fmop4aHMultipleSingle da n m) .h da.toNat (pairOf n) (fun _ => m) s) ∧
    (∀ da, Ready .s s → Completes (.fmop4aSMultipleSingle da n m) .s da.toNat (pairOf n) (fun _ => m) s) ∧
    (∀ da, Ready .d s → Completes (.fmop4aDMultipleSingle da n m) .d da.toNat (pairOf n) (fun _ => m) s)

/-- R104, R108, R112, R122 row 4: multiple vectors. The first-source register by block column, the second-source register
by block row, one pairing per quarter (90_conflicts.md C4). -/
def Obligations.MultipleVectorsComplete : Prop :=
  ∀ (s : State) (n m : BitVec 5), firstSourceLegal n = true → secondSourceLegal m = true →
    (∀ da, Ready .h s → Completes (.fmop4aHMultiple da n m) .h da.toNat (pairOf n) (pairOf m) s) ∧
    (∀ da, Ready .s s → Completes (.fmop4aSMultiple da n m) .s da.toNat (pairOf n) (pairOf m) s) ∧
    (∀ da, Ready .d s → Completes (.fmop4aDMultiple da n m) .d da.toNat (pairOf n) (pairOf m) s)

/-- R113 against R121: for every legal record and every `VL`, the restored loop nest with its snapshot and write-back
computes the closed form, all `k*k` elements at once, with the register numbers as the source writes them,
`n + (nreg-1)*C` and `m + (mreg-1)*R`. -/
def Obligations.LoopNestIsClosedForm : Prop :=
  ∀ (s : State) (rec : Record), rec.wf = true → Ready rec.esize s →
    ∃ t, fmop4a rec s = .next t ∧ t.pc = s.pc + 4 ∧
      ∀ r c, r < side s rec.esize → c < side s rec.esize →
        ∃ a b : BitVec 5, a.toNat = rec.n.toNat + (rec.nreg.count - 1) * block s rec.esize c ∧
          b.toNat = rec.m.toNat + (rec.mreg.count - 1) * block s rec.esize r ∧
          tileElem t rec.esize rec.da r c =
            fpMulAddZA s.params.fpUnit rec.esize (tileElem s rec.esize rec.da r c) (zElem s rec.esize a r)
              (zElem s rec.esize b c) s.fpcr

/-- R128: the order of the loops cannot be observed. Any order of the iterations gives the result of R113's. -/
def Obligations.LoopOrderNotObservable : Prop :=
  ∀ (s : State) (rec : Record) (op3 init : BitVec (tileSize (currentVL s) rec.esize)) (order : List (Nat × Nat × Nat)),
    order.Perm (iterations (dimOf (currentVL s) rec.esize)) →
      order.foldl (fun result it => iterationBody s rec op3 it result) init = outerProducts s rec op3 init

/-- R119, U5: every element of the local `result` is assigned before it is read, so what it starts as never shows. -/
def Obligations.InitialResultNeverShows : Prop :=
  ∀ (s : State) (rec : Record) (op3 init init' : BitVec (tileSize (currentVL s) rec.esize)),
    outerProducts s rec op3 init = outerProducts s rec op3 init'

/-- R119: the iterations `(outprod, row, col)` are in bijection with the tile indices `0 … k*k-1`. -/
def Obligations.TileIndexBijection : Prop :=
  ∀ (v : VecLen) (es : ESize),
    (∀ o row col, o < 4 → row < dimOf v.bits es → col < dimOf v.bits es →
      tileIndex (dimOf v.bits es) (o, row, col) < sideOf v.bits es * sideOf v.bits es) ∧
    ∀ k, k < sideOf v.bits es * sideOf v.bits es →
      ∃! it : Nat × Nat × Nat, (it.1 < 4 ∧ it.2.1 < dimOf v.bits es ∧ it.2.2 < dimOf v.bits es) ∧
        tileIndex (dimOf v.bits es) it = k

/-- R119, R130 (a), (b): the registers of a legal operand's group are those after its first one, within `Z0`-`Z15` and
`Z16`-`Z31`. -/
def Obligations.GroupRegistersInRange : Prop :=
  ∀ (rec : Record) (half : Nat), rec.wf = true → half < 2 →
    (groupRegister rec.n rec.nreg.count half).toNat = rec.n.toNat + (rec.nreg.count - 1) * half ∧
    rec.n.toNat + (rec.nreg.count - 1) * half ≤ 15 ∧
    (groupRegister rec.m rec.mreg.count half).toNat = rec.m.toNat + (rec.mreg.count - 1) * half ∧
    16 ≤ rec.m.toNat ∧ rec.m.toNat + (rec.mreg.count - 1) * half ≤ 31

/-- R114: every division is exact, a vector is `k = 2*dim` elements wide, the tile is `k*k` elements, and its size is
`VL*VL DIV esize`. -/
def Obligations.DimensionsExact : Prop :=
  ∀ (v : VecLen) (es : ESize),
    2 * dimOf v.bits es * es.bits = v.bits ∧ sideOf v.bits es = 2 * dimOf v.bits es ∧
      tileSize v.bits es = sideOf v.bits es * sideOf v.bits es * es.bits ∧ tileSize v.bits es = v.bits * v.bits / es.bits

/-- R35: the frame of every instruction. What it writes is the named tile and `pc`: every Z register, `FPCR`,
`PSTATE.SM`, `PSTATE.ZA` and every bit of ZA outside the tile keep their values (and so do the text and the
parameters). Which bits of ZA lie outside the tile rests on the placing of tiles (PRESUMED, GK6, log 7); `pc + 4` modulo
`2^64` is R29 and R126 by decision D8, the model's convention (DESIGN CHOICE, log 17). -/
def Obligations.FrameOfEveryInstruction : Prop :=
  ∀ (i : Instr) (s t : State), exec i s = .next t →
    SameElsewhere s t ∧ SameOutsideTile i.record.esize i.record.da s t ∧ t.pc = s.pc + 4

/-- R130 (f): the same instruction twice accumulates twice, `T'' = fma(fma(T, a, b), a, b)`. -/
def Obligations.TwiceAccumulatesTwice : Prop :=
  ∀ (i : Instr) (s : State), i.wf = true → Ready i.record.esize s →
    ∃ t u, exec i s = .next t ∧ exec i t = .next u ∧
      ∀ r c, r < side s i.record.esize → c < side s i.record.esize →
        tileElem u i.record.esize i.record.da r c =
          (fun a b => fpMulAddZA s.params.fpUnit i.record.esize
            (fpMulAddZA s.params.fpUnit i.record.esize (tileElem s i.record.esize i.record.da r c) a b s.fpcr) a b s.fpcr)
            (zElem s i.record.esize (groupRegister i.record.n i.record.nreg.count (block s i.record.esize c)) r)
            (zElem s i.record.esize (groupRegister i.record.m i.record.mreg.count (block s i.record.esize r)) c)

/-- R130 (d), R128: elements are independent. In two states that agree on the parameters, `FPCR`, element `(r, c)` of the
tile, element `r` of the one first-source register that feeds `(r, c)` and element `c` of the one second-source register
that does (R121), the new elements `(r, c)` agree, whatever the other elements, registers and state hold. -/
def Obligations.ElementsIndependent : Prop :=
  ∀ (i : Instr) (s s' t t' : State) (r c : Nat), i.wf = true → s.params = s'.params → s.fpcr = s'.fpcr →
    r < side s i.record.esize → c < side s i.record.esize →
    tileElem s i.record.esize i.record.da r c = tileElem s' i.record.esize i.record.da r c →
    (let x := groupRegister i.record.n i.record.nreg.count (block s i.record.esize c)
     zElem s i.record.esize x r = zElem s' i.record.esize x r) →
    (let x := groupRegister i.record.m i.record.mreg.count (block s i.record.esize r)
     zElem s i.record.esize x c = zElem s' i.record.esize x c) →
    exec i s = .next t → exec i s' = .next t' →
      tileElem t i.record.esize i.record.da r c = tileElem t' i.record.esize i.record.da r c

/-! ### The ZA storage -/

/-- R24: a tile written is read back, and every other tile of the element size is as it was. -/
def Obligations.TileWriteThenRead : Prop :=
  ∀ (s : State) (es : ESize) (t : Nat) (v : BitVec (tileSize (currentVL s) es)), t < es.tiles →
    zaTileRead (s.withZa (zaTileWrite s t es v)) t es = v ∧
    ∀ t', t' < es.tiles → t' ≠ t → zaTileRead (s.withZa (zaTileWrite s t es v)) t' es = zaTileRead s t' es

/-- R33 (placing PRESUMED, GK6, log 7): `ZAt.S = ZAt.D ∪ ZA(t+4).D` and `ZAt.H = ZAt.S ∪ ZA(t+2).S`, as sets of array
vectors. -/
def Obligations.TilesOverlap : Prop :=
  ∀ (v : VecLen) (i : Nat),
    (∀ t < 4, (∃ r < sideOf v.bits .s, i = tileVector .s t r) ↔
      (∃ r < sideOf v.bits .d, i = tileVector .d t r) ∨ ∃ r < sideOf v.bits .d, i = tileVector .d (t + 4) r) ∧
    ∀ t < 2, (∃ r < sideOf v.bits .h, i = tileVector .h t r) ↔
      (∃ r < sideOf v.bits .s, i = tileVector .s t r) ∨ ∃ r < sideOf v.bits .s, i = tileVector .s (t + 2) r

/-- R23, R25: the tiles of one element size share out the array vectors: each vector is one row of one tile. -/
def Obligations.TilesPartitionArray : Prop :=
  ∀ (v : VecLen) (es : ESize) (i : Nat), i < v.bits / 8 →
    ∃! tr : Nat × Nat, (tr.1 < es.tiles ∧ tr.2 < sideOf v.bits es) ∧ tileVector es tr.1 tr.2 = i

/-- R33, R35 (log 7): an instruction leaves every element, of any size, of every array vector that is no row of its tile
as it was. -/
def Obligations.OtherTilesKept : Prop :=
  ∀ (i : Instr) (s t : State), exec i s = .next t →
    ∀ (es : ESize) (x r c : Nat), x < es.tiles → r < side s es → c < side s es →
      tileVector es x r % i.record.esize.tiles ≠ i.record.da → tileElem t es x r c = tileElem s es x r c

/-! ### Invariants of every step -/

/-- R22, R23, R29, R57 (storage log 6): a step from a state in form gives a state in form: canonical text, `pc` a
multiple of 4, nothing stored outside the spec's bits. -/
def Obligations.StepKeepsInv : Prop := ∀ s t : State, Inv s → step s = .next t → Inv t

/-- The state after reset is in form (reset values the model's, logs 2 to 5). -/
def Obligations.ResetMeetsInv : Prop := Inv State.reset

/-- What reset leaves, the model's choices: `PSTATE.SM` and `PSTATE.ZA` zero as R34 gives them from general knowledge
(PRESUMED, log 4); `Z`, `ZA`, `FPCR` zero (DESIGN CHOICE, log 3), `pc` zero (DESIGN CHOICE, log 5), no program (DESIGN
CHOICE, log 15). So the first instruction after reset takes the trap R34 names; that it is this trap and no other rests
also on the parameters of `State.reset`, all features present and SME use permitted (DESIGN CHOICE, log 2), and on the
order of the enable check (PRESUMED, log 13). -/
def Obligations.ResetLeavesStreamingOff : Prop :=
  State.reset.pstateSM = false ∧ State.reset.pstateZA = false ∧ State.reset.pc = 0 ∧ State.reset.fpcr = 0 ∧
    (∀ i : Fin 32, State.reset.z[i] = 0) ∧ (∀ i : Fin maxVectors, State.reset.za[i] = 0) ∧ State.reset.text = [] ∧
    ∀ i, exec i State.reset = .fault (.smeAccessTrap .notStreaming)

/-- R35, R57, R174, R192: over a run of any length from any state, `Z`, `FPCR`, `PSTATE.SM`, `PSTATE.ZA`, the program text
and the parameters never change: nothing in the hardware writes them. And `pc` has moved on by 4 a step, modulo `2^64`:
R29 and R126 by decision D8, the model's convention (DESIGN CHOICE, log 17). -/
def Obligations.RunKeepsAllButTiles : Prop :=
  ∀ (n : Nat) (s t : State), Host.Core.run Sys2Proof.core n s = .next t →
    SameElsewhere s t ∧ t.pc = s.pc + BitVec.ofNat 64 (4 * n)

/-- R172, R174, R191: a run stays enabled. If it goes on for at least one step, it was enabled at its start, and it is
enabled at its end; from there the next step goes on, or only a missing feature (R78), a word that is no instruction
(R80) or the want of a whole word at `pc` (the model's refusal, DESIGN CHOICE, log 15) stops it. -/
def Obligations.RunStaysEnabled : Prop :=
  ∀ (n : Nat) (s t : State), Host.Core.run Sys2Proof.core (n + 1) s = .next t →
    Enabled s ∧ Enabled t ∧
      ((∃ u, step t = .next u) ∨ step t = .fault .undefined ∨ step t = .refused .notThisInstruction ∨
        step t = .refused .noProgramWord)

/-! ### The arithmetic of one element: the reference FPMulAdd_ZA (general knowledge, GK12 to GK14; logs 9 to 12) -/

/-- R143: the finite values of a format, in units of `2^-Q`, are the real numbers its layout gives them. -/
def Obligations.FiniteValuesFollowLayout : Prop :=
  ∀ (es : ESize) (x : BitVec es.bits), IsFinite (fpClassify es x) →
    ((fpClassify es x).units : ℚ) = layoutValue es x * 2 ^ unitExp es

/-- R149: the sum that is rounded is the real number `addend + op1*op2`, with no intermediate rounding. -/
def Obligations.ExactSumIsRealSum : Prop :=
  ∀ (es : ESize) (a x y : BitVec es.bits), IsFinite (fpClassify es a) → IsFinite (fpClassify es x) →
    IsFinite (fpClassify es y) →
    (exactSum es (fpClassify es a) (fpClassify es x) (fpClassify es y) : ℚ) =
      (layoutValue es a + layoutValue es x * layoutValue es y) * 2 ^ (2 * unitExp es)

/-- R146: any NaN argument, quiet or signalling, gives the default NaN, of sign 1 when `AH = 1`. The
reference function is general knowledge (GK13; PRESUMED, log 9), and its `AH = 1` clause is D19's (UNVERIFIED, log 11). -/
def Obligations.AnyNaNGivesDefaultNaN : Prop :=
  (∀ (a x y : BitVec 16) (fpcr : BitVec 64),
    ((fpClassify .h a).isNaN = true ∨ (fpClassify .h x).isNaN = true ∨ (fpClassify .h y).isNaN = true) →
      fpMulAddReference .h a x y fpcr = if fpcrAH fpcr then 0xFE00#16 else 0x7E00#16) ∧
  (∀ (a x y : BitVec 32) (fpcr : BitVec 64),
    ((fpClassify .s a).isNaN = true ∨ (fpClassify .s x).isNaN = true ∨ (fpClassify .s y).isNaN = true) →
      fpMulAddReference .s a x y fpcr = if fpcrAH fpcr then 0xFFC00000#32 else 0x7FC00000#32) ∧
  ∀ (a x y : BitVec 64) (fpcr : BitVec 64),
    ((fpClassify .d a).isNaN = true ∨ (fpClassify .d x).isNaN = true ∨ (fpClassify .d y).isNaN = true) →
      fpMulAddReference .d a x y fpcr = if fpcrAH fpcr then 0xFFF8000000000000#64 else 0x7FF8000000000000#64

/-- R147: after input flushing and with no NaN argument, infinity times zero, or infinities of opposite sign added, give
the default NaN. The reference function is general knowledge (GK13; PRESUMED, log 9). -/
def Obligations.InvalidOperationsGiveDefaultNaN : Prop :=
  ∀ (es : ESize) (a x y : BitVec es.bits) (fpcr : BitVec 64),
    (fpClassify es a).isNaN = false → (fpClassify es x).isNaN = false → (fpClassify es y).isNaN = false →
    (((fpUnpack es x fpcr).isInfinity = true ∧ (fpUnpack es y fpcr).isZero = true) ∨
      ((fpUnpack es x fpcr).isZero = true ∧ (fpUnpack es y fpcr).isInfinity = true) ∨
      ((fpUnpack es a fpcr).isInfinity = true ∧
        ((fpUnpack es x fpcr).isInfinity = true ∨ (fpUnpack es y fpcr).isInfinity = true) ∧
        a.msb ≠ xor x.msb y.msb)) →
    fpMulAddReference es a x y fpcr = defaultNaN es fpcr

/-- R148: when neither R146 nor R147 applies, an infinite addend, then an infinite product, is the result; and a zero
addend with a zero product of the same sign gives that zero. The reference function is general knowledge (GK13; PRESUMED,
log 9). -/
def Obligations.InfinitiesAndLikeZeros : Prop :=
  ∀ (es : ESize) (a x y : BitVec es.bits) (fpcr : BitVec 64),
    (fpClassify es a).isNaN = false → (fpClassify es x).isNaN = false → (fpClassify es y).isNaN = false →
    invalidOp (fpUnpack es a fpcr) (fpUnpack es x fpcr) (fpUnpack es y fpcr) = false →
    ((fpUnpack es a fpcr).isInfinity = true → fpMulAddReference es a x y fpcr = fpPack es a.msb (infinityField es)) ∧
    (((fpUnpack es x fpcr).isInfinity = true ∨ (fpUnpack es y fpcr).isInfinity = true) →
      fpMulAddReference es a x y fpcr = fpPack es (xor x.msb y.msb) (infinityField es)) ∧
    ((fpUnpack es a fpcr).isZero = true → ((fpUnpack es x fpcr).isZero = true ∨ (fpUnpack es y fpcr).isZero = true) →
      a.msb = xor x.msb y.msb → (fpUnpack es x fpcr).isInfinity = false → (fpUnpack es y fpcr).isInfinity = false →
      fpMulAddReference es a x y fpcr = fpPack es a.msb 0)

/-- R149: the numerical case, for finite arguments after input flushing that are not R148's like-signed zeros: an exact zero
sum is `+0`, but `-0` in mode RM; a sum that is not zero is rounded (`fpRound`, R150 and R151). The reference function is
general knowledge (GK13; PRESUMED, log 9); sums are whole numbers of `2^-2Q` (DEDUCED, log 29). -/
def Obligations.NumericalCase : Prop :=
  ∀ (es : ESize) (a x y : BitVec es.bits) (fpcr : BitVec 64),
    IsFinite (fpUnpack es a fpcr) → IsFinite (fpUnpack es x fpcr) → IsFinite (fpUnpack es y fpcr) →
    ¬ ((fpUnpack es a fpcr).isZero = true ∧ ((fpUnpack es x fpcr).isZero = true ∨ (fpUnpack es y fpcr).isZero = true) ∧
      a.msb = xor x.msb y.msb) →
    let v := exactSum es (fpUnpack es a fpcr) (fpUnpack es x fpcr) (fpUnpack es y fpcr)
    (v = 0 → fpMulAddReference es a x y fpcr = fpPack es (decide (fpcrRMode fpcr = .rm)) 0) ∧
      (v ≠ 0 → fpMulAddReference es a x y fpcr = fpRound es fpcr (decide (v < 0)) v.natAbs)

/-- R155, R149: the product is not rounded before the addition. `-(1+2^-11) + (1+2^-12)^2` is `2^-24` in single precision
and `-(1+2^-26) + (1+2^-27)^2` is `2^-54` in double precision; a product rounded first would give zero. -/
def Obligations.MultiplyAddIsFused : Prop :=
  fpMulAddReference .s 0xBF801000#32 0x3F800800#32 0x3F800800#32 0 = 0x33800000#32 ∧
    fpMulAddReference .d 0xBFF0000004000000#64 0x3FF0000002000000#64 0x3FF0000002000000#64 0 = 0x3C90000000000000#64

/-- R150, R142 P3: in mode RN, with no flush of results, a finite result is a nearest finite value of the format to the
exact sum, and an even one when another is as near. -/
def Obligations.NearestModeGivesNearest : Prop :=
  ∀ (es : ESize) (a x y u : BitVec es.bits) (fpcr : BitVec 64),
    IsFinite (fpUnpack es a fpcr) → IsFinite (fpUnpack es x fpcr) → IsFinite (fpUnpack es y fpcr) →
    fpcrRMode fpcr = .rn → resultFlush es fpcr = false →
    IsFinite (fpClassify es (fpMulAddReference es a x y fpcr)) → IsFinite (fpClassify es u) →
    let v := exactSum es (fpUnpack es a fpcr) (fpUnpack es x fpcr) (fpUnpack es y fpcr)
    let result := (fpClassify es (fpMulAddReference es a x y fpcr)).units
    let other := (fpClassify es u).units
    |v - result * 2 ^ unitExp es| ≤ |v - other * 2 ^ unitExp es| ∧
      (|v - result * 2 ^ unitExp es| = |v - other * 2 ^ unitExp es| → other ≠ result →
        (fpMulAddReference es a x y fpcr).getLsbD 0 = false)

/-- R150, R142 P3: in the directed modes, with no flush of results, a finite result is the least value of the format not
below the exact sum (RP), the greatest not above it (RM), or the greatest in magnitude not beyond it, on its side of
zero (RZ). -/
def Obligations.DirectedModesGiveBounds : Prop :=
  ∀ (es : ESize) (a x y u : BitVec es.bits) (fpcr : BitVec 64),
    IsFinite (fpUnpack es a fpcr) → IsFinite (fpUnpack es x fpcr) → IsFinite (fpUnpack es y fpcr) →
    resultFlush es fpcr = false →
    IsFinite (fpClassify es (fpMulAddReference es a x y fpcr)) → IsFinite (fpClassify es u) →
    let v := exactSum es (fpUnpack es a fpcr) (fpUnpack es x fpcr) (fpUnpack es y fpcr)
    let result := (fpClassify es (fpMulAddReference es a x y fpcr)).units
    let other := (fpClassify es u).units
    (fpcrRMode fpcr = .rp → v ≤ result * 2 ^ unitExp es ∧ (v ≤ other * 2 ^ unitExp es → result ≤ other)) ∧
    (fpcrRMode fpcr = .rm → result * 2 ^ unitExp es ≤ v ∧ (other * 2 ^ unitExp es ≤ v → other ≤ result)) ∧
    (fpcrRMode fpcr = .rz → |result * 2 ^ unitExp es| ≤ |v| ∧ 0 ≤ result * v ∧
      (|other * 2 ^ unitExp es| ≤ |v| → |other| ≤ |result|))

/-- R142 P1: with finite arguments of which none is subnormal, a non-zero sum that is exactly a normal number of the format
is the result, in every rounding mode and under every flush control. -/
def Obligations.RepresentableSumIsExact : Prop :=
  ∀ (es : ESize) (a x y u : BitVec es.bits) (fpcr : BitVec 64),
    IsNotSubnormal es (fpClassify es a) → IsNotSubnormal es (fpClassify es x) → IsNotSubnormal es (fpClassify es y) →
    IsNotSubnormal es (fpClassify es u) → (fpClassify es u).isZero = false →
    exactSum es (fpClassify es a) (fpClassify es x) (fpClassify es y) = (fpClassify es u).units * 2 ^ unitExp es →
    fpMulAddReference es a x y fpcr = u

/-- R142 P4: a zero addend and a product with a zero factor, the other finite, give a zero. -/
def Obligations.ZeroProductAndAddendGiveZero : Prop :=
  ∀ (es : ESize) (a x y : BitVec es.bits) (fpcr : BitVec 64),
    (fpClassify es a).isZero = true → IsFinite (fpClassify es x) → IsFinite (fpClassify es y) →
    ((fpClassify es x).isZero = true ∨ (fpClassify es y).isZero = true) →
    (fpClassify es (fpMulAddReference es a x y fpcr)).isZero = true

/-- R151: overflow. When the sum rounded with an unbounded exponent is `2^(bias+1)` or more, the result is the infinity of
its sign in RN, in RP if positive, in RM if negative, and else the largest finite number of its sign. -/
def Obligations.OverflowByMode : Prop :=
  ∀ (es : ESize) (a x y : BitVec es.bits) (fpcr : BitVec 64),
    IsFinite (fpUnpack es a fpcr) → IsFinite (fpUnpack es x fpcr) → IsFinite (fpUnpack es y fpcr) →
    let v := exactSum es (fpUnpack es a fpcr) (fpUnpack es x fpcr) (fpUnpack es y fpcr)
    let neg := decide (v < 0)
    2 ^ (expBias es + 1 + 2 * unitExp es) ≤ roundUnbounded es (fpcrRMode fpcr) neg v.natAbs →
    fpMulAddReference es a x y fpcr =
      fpPack es neg
        (if fpcrRMode fpcr = .rn ∨ (fpcrRMode fpcr = .rp ∧ ¬ v < 0) ∨ (fpcrRMode fpcr = .rm ∧ v < 0) then infinityField es
         else infinityField es - 1)

/-- R151, R154: flush of results. With the flush bit of the format set, a non-zero sum smaller in magnitude than the
smallest normal number gives the zero of its sign: before rounding when `AH = 0`, after rounding with an unbounded
exponent when `AH = 1` (UNVERIFIED, log 11). -/
def Obligations.TinyResultsFlushed : Prop :=
  ∀ (es : ESize) (a x y : BitVec es.bits) (fpcr : BitVec 64),
    IsFinite (fpUnpack es a fpcr) → IsFinite (fpUnpack es x fpcr) → IsFinite (fpUnpack es y fpcr) →
    let v := exactSum es (fpUnpack es a fpcr) (fpUnpack es x fpcr) (fpUnpack es y fpcr)
    v ≠ 0 → resultFlush es fpcr = true →
    (if fpcrAH fpcr then roundUnbounded es (fpcrRMode fpcr) (decide (v < 0)) v.natAbs else v.natAbs) <
      2 ^ (fracBits es + unitExp es) →
    fpMulAddReference es a x y fpcr = fpPack es (decide (v < 0)) 0

/-- R145: input flushing is the replacing of each subnormal argument by the zero of its sign; for half precision when
`FZ16 = 1`, else when `FIZ = 1` or `FZ = 1` and `AH = 0`. -/
def Obligations.InputFlushReplacesSubnormals : Prop :=
  (∀ (es : ESize) (a x y : BitVec es.bits) (fpcr : BitVec 64),
    fpMulAddReference es a x y fpcr =
      fpMulAddReference es (flushedInput es a fpcr) (flushedInput es x fpcr) (flushedInput es y fpcr) fpcr) ∧
  ∀ fpcr : BitVec 64,
    (inputFlush .h fpcr = true ↔ fpcr.getLsbD 19 = true) ∧
    (inputFlush .s fpcr = true ↔ fpcr.getLsbD 0 = true ∨ (fpcr.getLsbD 24 = true ∧ fpcr.getLsbD 1 = false)) ∧
    (inputFlush .d fpcr = true ↔ fpcr.getLsbD 0 = true ∨ (fpcr.getLsbD 24 = true ∧ fpcr.getLsbD 1 = false))

/-- R153: of `FPCR` the function reads `RMode`, `AH` and, by precision, `FZ16` (half) or `FZ` and `FIZ` (single, double):
two values that agree on those give the same results, whatever `DN`, `AHP`, the trap enables and every other bit
hold. -/
def Obligations.OnlyListedFpcrFieldsMatter : Prop :=
  ∀ fpcr fpcr' : BitVec 64,
    fpcr.getLsbD 23 = fpcr'.getLsbD 23 → fpcr.getLsbD 22 = fpcr'.getLsbD 22 → fpcr.getLsbD 1 = fpcr'.getLsbD 1 →
    (fpcr.getLsbD 19 = fpcr'.getLsbD 19 →
      ∀ a x y : BitVec 16, fpMulAddReference .h a x y fpcr = fpMulAddReference .h a x y fpcr') ∧
    (fpcr.getLsbD 24 = fpcr'.getLsbD 24 → fpcr.getLsbD 0 = fpcr'.getLsbD 0 →
      (∀ a x y : BitVec 32, fpMulAddReference .s a x y fpcr = fpMulAddReference .s a x y fpcr') ∧
      ∀ a x y : BitVec 64, fpMulAddReference .d a x y fpcr = fpMulAddReference .d a x y fpcr')

/-- R140, R149: the product's factors can be exchanged. -/
def Obligations.FactorsCommute : Prop :=
  ∀ (es : ESize) (a x y : BitVec es.bits) (fpcr : BitVec 64),
    fpMulAddReference es a x y fpcr = fpMulAddReference es a y x fpcr

/-- R124, R156: `FPNeg` inverts the sign bit and no other, but returns a NaN unchanged when `AH = 1`; no instruction
evaluates it: the first-source element of every decoded record is used as it is. R156 is general knowledge (GK15;
PRESUMED, log 25). -/
def Obligations.FpNegMeaningAndAbsence : Prop :=
  (∀ (es : ESize) (x : BitVec es.bits) (fpcr : BitVec 64) (b : Nat), b < es.bits →
    (fpNeg es x fpcr).getLsbD b =
      if fpcrAH fpcr = true ∧ (fpClassify es x).isNaN = true then x.getLsbD b
      else if b = es.bits - 1 then !x.getLsbD b else x.getLsbD b) ∧
  ∀ (i : Instr) (s : State) (op1 : BitVec (currentVL s)) (r : Nat),
    firstElem s i.record op1 r = elem op1 r i.record.esize.bits

/-! ### The assembler -/

/-- R81, R82, R83, R86 (log 26): assembling what the disassembler prints of a well-formed instruction gives its word. -/
def Obligations.AssembleOfDisassemble : Prop :=
  ∀ i : Instr, i.wf = true → assemble (disassemble i) = .ok (encode i)

/-- R81, R82, R86 (log 26): the word of a line the assembler accepts decodes to an instruction whose printed line is that
line: no operand is lost or altered. -/
def Obligations.AcceptedLineRoundTrips : Prop :=
  ∀ (l : AsmLine) (w : Word), assemble l = .ok w → ∃ i, decodeWord w = some i ∧ disassemble i = l

/-- R86: what an assembler must reject, and that it rejects nothing else: an odd first register, a source out of its
range, a pair whose second register is not the first plus one, a tile number beyond the range, suffixes that differ. -/
def Obligations.AssemblerRejectsExactly : Prop :=
  ∀ l : AsmLine, (∃ e, assemble l = .error e) ↔
    (l.first.firstReg % 2 = 1 ∨ l.second.firstReg % 2 = 1) ∨
    (l.first.within 0 15 = false ∨ l.second.within 16 31 = false) ∨
    (l.first.consecutive = false ∨ l.second.consecutive = false) ∨ l.suffix.tiles ≤ l.tile ∨
    (l.first.hasSuffix l.suffix = false ∨ l.second.hasSuffix l.suffix = false)

/-! ### Programs -/

/-- R194, R51, R29 (D23, DESIGN CHOICE, log 28; at `base + 4*L` the model's refusal, log 15): for every base that is a
multiple of 4, those near `2^64` from which the addresses wrap included, and every list of fewer than `2^62` words: a
state that runs the program's text with `pc = base + 4*k` fetches word `k`; where the run is final there is no word to
fetch; the start has `pc = base`, canonical text, and everything else as the state it was made from. -/
def Obligations.ProgramFetchesItsWords : Prop :=
  ∀ (s : State) (base : Addr) (ws : List Word), base.toNat % 4 = 0 → 4 * ws.length < 2 ^ 64 →
    (∀ u : State, u.text = (startProgram s base ws).text →
      (∀ k w, ws[k]? = some w → u.pc = base + BitVec.ofNat 64 (4 * k) → fetchWord u = .ok w) ∧
      (Final base ws.length u → step u = .refused .noProgramWord)) ∧
    Memory.wf (startProgram s base ws).text ∧
    startProgram s base ws = { s with pc := base, text := (startProgram s base ws).text }

/-- R194, R192 (D23, D24; log 28), for every aligned base and list of fewer than `2^62` words: the run of the program
executes its words in their order, each on the state the one before it left, to its end, final or not; and a program of
instructions whose features are present, started enabled, ends as final. -/
def Obligations.ProgramRunsItsWordsInOrder : Prop :=
  ∀ (s : State) (base : Addr) (ws : List Word), base.toNat % 4 = 0 → 4 * ws.length < 2 ^ 64 →
    runProgram base ws.length ws.length (startProgram s base ws) = runWords ws (startProgram s base ws) ∧
    (Enabled s → (∀ w ∈ ws, ∃ i, decodeWord w = some i ∧ featuresPresent i.record.esize s.params = true) →
      ∃ t, runProgram base ws.length ws.length (startProgram s base ws) = .final t ∧ Final base ws.length t)
end

