-- ==== Sys2Proof/Laws/Bits.lean ====
section
/-! SUPPORT. What `Elem`, the loops and the vector map do (R12, R13). -/

namespace Sys2Proof.Machine

/-- The bits of an element. -/
@[simp] theorem getLsbD_elem {w : Nat} (x : BitVec w) (i size b : Nat) :
    (elem x i size).getLsbD b = (decide (b < size) && x.getLsbD (i * size + b)) := by
  simp [elem]

/-- The bits of a bitstring after an element is replaced: that substring is the value, every other bit as it was. -/
theorem getLsbD_setElem {w : Nat} (x : BitVec w) (i size : Nat) (v : BitVec size) (b : Nat) :
    (setElem x i size v).getLsbD b =
      if i * size ≤ b ∧ b < (i + 1) * size ∧ b < w then v.getLsbD (b - i * size) else x.getLsbD b := by
  have hs : (i + 1) * size = i * size + size := Nat.succ_mul i size
  rw [hs]
  unfold setElem
  by_cases hw : b < w
  · by_cases h1 : i * size ≤ b
    · have h3 : b - i * size < w := by omega
      by_cases h2 : b < i * size + size
      · have h4 : b - i * size < size := by omega
        have h5 : ¬ b < i * size := by omega
        simp [hw, h1, h2, h4, h5]
      · have h4 : ¬ b - i * size < size := by omega
        have h5 : size ≤ b - i * size := by omega
        simp [hw, h2, h5]
    · have h2 : b < i * size := by omega
      simp [hw, h1, h2]
  · have h2 : w ≤ b := by omega
    simp [hw, BitVec.getLsbD_of_ge _ _ h2]

/-- Reading back the element just written. -/
theorem elem_setElem_same {w : Nat} (x : BitVec w) (i size : Nat) (v : BitVec size) (h : (i + 1) * size ≤ w) :
    elem (setElem x i size v) i size = v := by
  apply BitVec.eq_of_getLsbD_eq
  intro b hb
  have h1 : (i + 1) * size = i * size + size := Nat.succ_mul i size
  have h2 : i * size + b < (i + 1) * size := by omega
  have h3 : i * size + b < w := by omega
  rw [getLsbD_elem, getLsbD_setElem, if_pos ⟨Nat.le_add_right _ _, h2, h3⟩]
  simp [hb]

/-- Writing one element leaves the others as they were. -/
theorem elem_setElem_ne {w : Nat} (x : BitVec w) (i j size : Nat) (v : BitVec size) (h : i ≠ j) :
    elem (setElem x i size v) j size = elem x j size := by
  apply BitVec.eq_of_getLsbD_eq
  intro b hb
  have hi : (i + 1) * size = i * size + size := Nat.succ_mul i size
  have hj : (j + 1) * size = j * size + size := Nat.succ_mul j size
  have hn : ¬ (i * size ≤ j * size + b ∧ j * size + b < (i + 1) * size ∧ j * size + b < w) := by
    rintro ⟨h1, h2, -⟩
    rcases Nat.lt_or_gt_of_ne h with hlt | hgt
    · have : (i + 1) * size ≤ j * size := Nat.mul_le_mul_right size hlt
      omega
    · have : (j + 1) * size ≤ i * size := Nat.mul_le_mul_right size hgt
      omega
  rw [getLsbD_elem, getLsbD_elem, getLsbD_setElem, if_neg hn]

/-- A loop none of whose iterations changes an observation leaves it as it was. -/
theorem forLoop_keep {α β : Type} (obs : α → β) (n : Nat) (body : Nat → α → α) (a : α)
    (h : ∀ i < n, ∀ x, obs (body i x) = obs x) : obs (forLoop n body a) = obs a := by
  induction n with
  | zero => rfl
  | succ k ih =>
    rw [forLoop, h k (Nat.lt_succ_self k)]
    exact ih fun i hi => h i (by omega)

/-- A loop one of whose iterations fixes an observation, and none of whose others changes it. -/
theorem forLoop_one {α β : Type} (obs : α → β) (n : Nat) (body : Nat → α → α) (a : α) (i₀ : Nat) (v : β) (hi : i₀ < n)
    (hset : ∀ x, obs (body i₀ x) = v) (hkeep : ∀ i < n, i ≠ i₀ → ∀ x, obs (body i x) = obs x) :
    obs (forLoop n body a) = v := by
  induction n with
  | zero => omega
  | succ k ih =>
    rw [forLoop]
    by_cases hk : i₀ = k
    · subst hk
      exact hset _
    · rw [hkeep k (Nat.lt_succ_self k) (fun e => hk e.symm)]
      exact ih (by omega) fun i h hne => hkeep i (by omega) hne

theorem mapFrom_getElem {α : Type} (f : Nat → α → α) (i : Nat) (l : List α) (j : Nat) (h : j < l.length) :
    (mapFrom f i l)[j]'(by rw [mapFrom_length]; exact h) = f (i + j) l[j] := by
  induction l generalizing i j with
  | nil => simp at h
  | cons x xs ih =>
    cases j with
    | zero => simp [mapFrom]
    | succ j =>
      simp only [mapFrom, List.getElem_cons_succ]
      rw [ih (i + 1) j (by simpa using h), Nat.add_right_comm, Nat.add_assoc]

/-- The entries of a mapped vector. -/
@[simp] theorem mapVector_getElem {α : Type} {n : Nat} (f : Nat → α → α) (v : Vector α n) (i : Nat) (h : i < n) :
    (mapVector f v)[i] = f i v[i] := by
  have hl := mapFrom_getElem f 0 v.toList i (by simpa using h)
  simpa [mapVector] using hl

end Sys2Proof.Machine
end

