-- ==== Sys2Proof/Laws/FpArith.lean ====
section
/-! SUPPORT. The small laws of the reference arithmetic: forcing `DN` changes no field it reads (R144, R153), what unpacking
does (R145), and what each case of the multiply-add needs (R146 to R149). -/

namespace Sys2Proof.Machine

/-- Forcing `DN` changes no other bit. -/
theorem getLsbD_fpcrWithDN (fpcr : BitVec 64) (b : Nat) (h : b ≠ 25) : (fpcrWithDN fpcr).getLsbD b = fpcr.getLsbD b := by
  have h2 : (1#64 <<< 25).getLsbD b = false := by
    rw [BitVec.getLsbD_shiftLeft]
    by_cases h3 : b < 25
    · simp [h3]
    · have h4 : b - 25 ≠ 0 := by omega
      simp [BitVec.getLsbD_one, h4]
  rw [fpcrWithDN, BitVec.getLsbD_or, h2, Bool.or_false]

@[simp] theorem fpcrRMode_withDN (fpcr : BitVec 64) : fpcrRMode (fpcrWithDN fpcr) = fpcrRMode fpcr := by
  simp only [fpcrRMode, getLsbD_fpcrWithDN fpcr 23 (by decide), getLsbD_fpcrWithDN fpcr 22 (by decide)]

@[simp] theorem fpcrFZ_withDN (fpcr : BitVec 64) : fpcrFZ (fpcrWithDN fpcr) = fpcrFZ fpcr :=
  getLsbD_fpcrWithDN fpcr 24 (by decide)

@[simp] theorem fpcrFZ16_withDN (fpcr : BitVec 64) : fpcrFZ16 (fpcrWithDN fpcr) = fpcrFZ16 fpcr :=
  getLsbD_fpcrWithDN fpcr 19 (by decide)

@[simp] theorem fpcrAH_withDN (fpcr : BitVec 64) : fpcrAH (fpcrWithDN fpcr) = fpcrAH fpcr :=
  getLsbD_fpcrWithDN fpcr 1 (by decide)

@[simp] theorem fpcrFIZ_withDN (fpcr : BitVec 64) : fpcrFIZ (fpcrWithDN fpcr) = fpcrFIZ fpcr :=
  getLsbD_fpcrWithDN fpcr 0 (by decide)

@[simp] theorem inputFlush_withDN (es : ESize) (fpcr : BitVec 64) : inputFlush es (fpcrWithDN fpcr) = inputFlush es fpcr := by
  cases es <;> simp [inputFlush]

@[simp] theorem resultFlush_withDN (es : ESize) (fpcr : BitVec 64) :
    resultFlush es (fpcrWithDN fpcr) = resultFlush es fpcr := by
  cases es <;> simp [resultFlush]

@[simp] theorem fpUnpack_withDN (es : ESize) (x : BitVec es.bits) (fpcr : BitVec 64) :
    fpUnpack es x (fpcrWithDN fpcr) = fpUnpack es x fpcr := by
  simp [fpUnpack]

@[simp] theorem defaultNaN_withDN (es : ESize) (fpcr : BitVec 64) : defaultNaN es (fpcrWithDN fpcr) = defaultNaN es fpcr := by
  simp [defaultNaN]

@[simp] theorem fpRound_withDN (es : ESize) (fpcr : BitVec 64) (neg : Bool) (k : Nat) :
    fpRound es (fpcrWithDN fpcr) neg k = fpRound es fpcr neg k := by
  simp [fpRound, resultFlushed]

@[simp] theorem fpNumeric_withDN (es : ESize) (fpcr : BitVec 64) (a x y : FPValue) :
    fpNumeric es (fpcrWithDN fpcr) a x y = fpNumeric es fpcr a x y := by
  simp [fpNumeric]

/-- The reference is the multiply-add on the unpacked arguments (R144, R145). -/
theorem fpMulAddReference_eq (es : ESize) (a x y : BitVec es.bits) (fpcr : BitVec 64) :
    fpMulAddReference es a x y fpcr =
      fpMulAddValues es fpcr (fpUnpack es a fpcr) (fpUnpack es x fpcr) (fpUnpack es y fpcr) := by
  simp [fpMulAddReference, fpMulAdd, fpMulAddValues]

/-- The sign of what an argument unpacks to is its sign bit. -/
@[simp] theorem sign_fpClassify (es : ESize) (x : BitVec es.bits) : (fpClassify es x).sign = x.msb := by
  unfold fpClassify
  dsimp only
  repeat' split
  all_goals rfl

@[simp] theorem sign_fpUnpack (es : ESize) (x : BitVec es.bits) (fpcr : BitVec 64) :
    (fpUnpack es x fpcr).sign = x.msb := by
  rw [← sign_fpClassify es x]
  unfold fpUnpack
  split
  · split <;> simp_all [FPValue.sign]
  · rfl

@[simp] theorem isNaN_fpUnpack (es : ESize) (x : BitVec es.bits) (fpcr : BitVec 64) :
    (fpUnpack es x fpcr).isNaN = (fpClassify es x).isNaN := by
  unfold fpUnpack
  split
  · split <;> simp_all [FPValue.isNaN]
  · rfl

@[simp] theorem isInfinity_fpUnpack (es : ESize) (x : BitVec es.bits) (fpcr : BitVec 64) :
    (fpUnpack es x fpcr).isInfinity = (fpClassify es x).isInfinity := by
  unfold fpUnpack
  split
  · split <;> simp_all [FPValue.isInfinity]
  · rfl

/-- With finite arguments no operation is invalid (R147). -/
theorem invalidOp_finite (a x y : FPValue) (ha : a.isInfinity = false) (hx : x.isInfinity = false)
    (hy : y.isInfinity = false) : invalidOp a x y = false := by
  simp [invalidOp, ha, hx, hy]

/-- The finite cases: like-signed zeros (R148), else the numerical case (R149). -/
theorem fpMulAddValues_finite (es : ESize) (fpcr : BitVec 64) (a x y : FPValue) (ha : a.isNaN = false ∧ a.isInfinity = false)
    (hx : x.isNaN = false ∧ x.isInfinity = false) (hy : y.isNaN = false ∧ y.isInfinity = false) :
    fpMulAddValues es fpcr a x y =
      if a.isZero && (x.isZero || y.isZero) && (a.sign == productSign x y) then fpPack es a.sign 0
      else fpNumeric es fpcr a x y := by
  simp [fpMulAddValues, invalidOp_finite a x y ha.2 hx.2 hy.2, ha.1, ha.2, hx.1, hx.2, hy.1, hy.2]

end Sys2Proof.Machine
end

