-- ==== Sys2Proof/Laws/Memory.lean ====
section
/-! SUPPORT. The laws of program text: a write keeps the canonical form, is read back, and leaves every other address
alone; a placed word is the word fetched. -/

namespace Sys2Proof.Machine

/-- A write adds no address but its own. -/
theorem memWrite_mem (mem : Memory) (addr : Nat) (v : Byte) (c : Host.Cell) (h : c ∈ memWrite mem addr v) :
    c = (addr, v) ∨ c ∈ mem := by
  induction mem with
  | nil => simpa [memWrite] using h
  | cons e rest ih =>
    obtain ⟨a, b⟩ := e
    simp only [memWrite] at h
    split at h
    · simpa using h
    · split at h
      · next heq => subst heq; simp at h ⊢; tauto
      · rcases List.mem_cons.1 h with h | h
        · simp [h]
        · rcases ih h with h | h <;> simp [h]

/-- A write keeps the canonical form. -/
theorem memWrite_wf (mem : Memory) (addr : Nat) (v : Byte) (h : mem.wf) (ha : addr < 2 ^ 64) :
    (memWrite mem addr v).wf := by
  refine ⟨?_, fun c hc => ?_⟩
  · induction mem with
    | nil => simp [memWrite]
    | cons e rest ih =>
      obtain ⟨a, b⟩ := e
      obtain ⟨hp, hb⟩ := h
      rw [List.pairwise_cons] at hp
      simp only [memWrite]
      split
      · next hlt =>
        refine List.pairwise_cons.2 ⟨fun c hc => ?_, List.pairwise_cons.2 hp⟩
        rcases List.mem_cons.1 hc with rfl | hc
        · exact hlt
        · exact Nat.lt_trans hlt (hp.1 c hc)
      · split
        · exact List.pairwise_cons.2 hp
        · refine List.pairwise_cons.2 ⟨fun c hc => ?_, ih ⟨hp.2, fun c hc => hb c (List.mem_cons_of_mem _ hc)⟩⟩
          rcases memWrite_mem _ _ _ _ hc with rfl | hc
          · show a < addr
            omega
          · exact hp.1 c hc
  · rcases memWrite_mem _ _ _ _ hc with rfl | hc
    · exact ha
    · exact h.2 c hc

/-- What an address reads as after a write: the byte written there, the old byte elsewhere. -/
theorem memRead_memWrite (mem : Memory) (addr : Nat) (v : Byte) (a : Nat) (h : mem.wf) :
    memRead (memWrite mem addr v) a = if a = addr then some v else memRead mem a := by
  induction mem with
  | nil => simp [memWrite, memRead]
  | cons e rest ih =>
    obtain ⟨x, b⟩ := e
    obtain ⟨hp, hb⟩ := h
    rw [List.pairwise_cons] at hp
    have ih := ih ⟨hp.2, fun c hc => hb c (List.mem_cons_of_mem _ hc)⟩
    simp only [memWrite]
    split
    · simp [memRead]
    · split
      · next heq => subst heq; simp only [memRead]; split <;> rfl
      · simp only [memRead, ih]
        split
        · next h1 => subst h1; simp; omega
        · rfl

/-- The bytes of a word make the word. -/
theorem wordOfBytes_byteOfWord (w : Word) :
    wordOfBytes (byteOfWord w 0) (byteOfWord w 1) (byteOfWord w 2) (byteOfWord w 3) = w := by
  apply BitVec.eq_of_getLsbD_eq
  intro b hb
  simp only [wordOfBytes, byteOfWord, BitVec.getLsbD_append, BitVec.getLsbD_extractLsb']
  rcases Nat.lt_or_ge b 8 with h | h
  · simp [h]
  · rcases Nat.lt_or_ge (b - 8) 8 with h2 | h2
    · simp [h2, show ¬ b < 8 by omega, show 8 + (b - 8) = b by omega]
    · rcases Nat.lt_or_ge (b - 16) 8 with h3 | h3
      · simp [show ¬ b < 8 by omega, show ¬ b - 8 < 8 by omega, show b - 8 - 8 < 8 by omega, show 16 + (b - 8 - 8) = b by omega]
      · simp [show ¬ b < 8 by omega, show ¬ b - 8 < 8 by omega, show ¬ b - 8 - 8 < 8 by omega,
          show b - 8 - 8 - 8 < 8 by omega, show 24 + (b - 8 - 8 - 8) = b by omega]

/-- Placing a word keeps the canonical form, at any address. -/
theorem placeWord_wf (mem : Memory) (addr : Addr) (w : Word) (h : mem.wf) : (placeWord mem addr w).wf :=
  memWrite_wf _ _ _ (memWrite_wf _ _ _ (memWrite_wf _ _ _ (memWrite_wf _ _ _ h addr.isLt) (addr + 1).isLt)
    (addr + 2).isLt) (addr + 3).isLt

/-- The bytes of an aligned word do not wrap. -/
theorem toNat_add_in_word (addr : Addr) (k : Nat) (ha : addr.toNat % 4 = 0) (hk : k < 4) :
    (addr + BitVec.ofNat 64 k).toNat = addr.toNat + k := by
  have := addr.isLt
  rw [BitVec.toNat_add, BitVec.toNat_ofNat]
  omega

/-- What an address reads as after a word is placed at a multiple of 4. -/
theorem memRead_placeWord (mem : Memory) (addr : Addr) (w : Word) (a : Nat) (h : mem.wf) (ha : addr.toNat % 4 = 0) :
    memRead (placeWord mem addr w) a =
      if addr.toNat ≤ a ∧ a < addr.toNat + 4 then some (byteOfWord w (a - addr.toNat)) else memRead mem a := by
  have e1 : (addr + 1).toNat = addr.toNat + 1 := toNat_add_in_word addr 1 ha (by omega)
  have e2 : (addr + 2).toNat = addr.toNat + 2 := toNat_add_in_word addr 2 ha (by omega)
  have e3 : (addr + 3).toNat = addr.toNat + 3 := toNat_add_in_word addr 3 ha (by omega)
  have h0 := memWrite_wf mem addr.toNat (byteOfWord w 0) h addr.isLt
  have h1 := memWrite_wf _ (addr + 1).toNat (byteOfWord w 1) h0 (addr + 1).isLt
  have h2 := memWrite_wf _ (addr + 2).toNat (byteOfWord w 2) h1 (addr + 2).isLt
  rw [placeWord, memRead_memWrite _ _ _ _ h2, memRead_memWrite _ _ _ _ h1, memRead_memWrite _ _ _ _ h0,
    memRead_memWrite _ _ _ _ h, e1, e2, e3]
  by_cases hin : addr.toNat ≤ a ∧ a < addr.toNat + 4
  · obtain ⟨d, rfl⟩ := Nat.exists_eq_add_of_le hin.1
    obtain rfl | rfl | rfl | rfl : d = 0 ∨ d = 1 ∨ d = 2 ∨ d = 3 := by omega
    all_goals simp
  · rw [if_neg (by omega), if_neg (by omega), if_neg (by omega), if_neg (by omega), if_neg hin]

/-- Fetching the four bytes of a word at an aligned `pc`. -/
theorem fetchWord_of_bytes (s : State) (w : Word) (hpc : s.pc.toNat % 4 = 0)
    (h : ∀ k < 4, memRead s.text (s.pc.toNat + k) = some (byteOfWord w k)) : fetchWord s = .ok w := by
  have h0 := h 0 (by omega)
  have h1 := h 1 (by omega)
  have h2 := h 2 (by omega)
  have h3 := h 3 (by omega)
  rw [Nat.add_zero] at h0
  simp [fetchWord, hpc, h0, h1, h2, h3, wordOfBytes_byteOfWord]

end Sys2Proof.Machine
end

