-- ==== Sys2Proof/Laws/State.lean ====
section
/-! SUPPORT. One lemma per field per update of the state. -/

namespace Sys2Proof.Machine

variable (s : State)

@[simp] theorem State.withPc_params (pc : Addr) : (s.withPc pc).params = s.params := rfl
@[simp] theorem State.withPc_z (pc : Addr) : (s.withPc pc).z = s.z := rfl
@[simp] theorem State.withPc_za (pc : Addr) : (s.withPc pc).za = s.za := rfl
@[simp] theorem State.withPc_fpcr (pc : Addr) : (s.withPc pc).fpcr = s.fpcr := rfl
@[simp] theorem State.withPc_pstateSM (pc : Addr) : (s.withPc pc).pstateSM = s.pstateSM := rfl
@[simp] theorem State.withPc_pstateZA (pc : Addr) : (s.withPc pc).pstateZA = s.pstateZA := rfl
@[simp] theorem State.withPc_pc (pc : Addr) : (s.withPc pc).pc = pc := rfl
@[simp] theorem State.withPc_text (pc : Addr) : (s.withPc pc).text = s.text := rfl

@[simp] theorem State.withZa_params (za : Vector Vec maxVectors) : (s.withZa za).params = s.params := rfl
@[simp] theorem State.withZa_z (za : Vector Vec maxVectors) : (s.withZa za).z = s.z := rfl
@[simp] theorem State.withZa_za (za : Vector Vec maxVectors) : (s.withZa za).za = za := rfl
@[simp] theorem State.withZa_fpcr (za : Vector Vec maxVectors) : (s.withZa za).fpcr = s.fpcr := rfl
@[simp] theorem State.withZa_pstateSM (za : Vector Vec maxVectors) : (s.withZa za).pstateSM = s.pstateSM := rfl
@[simp] theorem State.withZa_pstateZA (za : Vector Vec maxVectors) : (s.withZa za).pstateZA = s.pstateZA := rfl
@[simp] theorem State.withZa_pc (za : Vector Vec maxVectors) : (s.withZa za).pc = s.pc := rfl
@[simp] theorem State.withZa_text (za : Vector Vec maxVectors) : (s.withZa za).text = s.text := rfl

@[simp] theorem State.withText_params (text : Memory) : (s.withText text).params = s.params := rfl
@[simp] theorem State.withText_z (text : Memory) : (s.withText text).z = s.z := rfl
@[simp] theorem State.withText_za (text : Memory) : (s.withText text).za = s.za := rfl
@[simp] theorem State.withText_fpcr (text : Memory) : (s.withText text).fpcr = s.fpcr := rfl
@[simp] theorem State.withText_pstateSM (text : Memory) : (s.withText text).pstateSM = s.pstateSM := rfl
@[simp] theorem State.withText_pstateZA (text : Memory) : (s.withText text).pstateZA = s.pstateZA := rfl
@[simp] theorem State.withText_pc (text : Memory) : (s.withText text).pc = s.pc := rfl
@[simp] theorem State.withText_text (text : Memory) : (s.withText text).text = text := rfl

end Sys2Proof.Machine
end

