-- ==== Sys2Proof/Laws/Operands.lean ====
section
/-! SUPPORT. The dimensions of the Operation (R114) and what reading and writing a tile do (R24). -/

namespace Sys2Proof.Machine

/-- A vector is `k` elements wide (R114). -/
theorem side_mul_bits (v : VecLen) (es : ESize) : sideOf v.bits es * es.bits = v.bits := by
  cases v <;> cases es <;> rfl

/-- `k = 2*dim` (R114). -/
theorem side_eq_two_dim (v : VecLen) (es : ESize) : sideOf v.bits es = 2 * dimOf v.bits es := by
  cases v <;> cases es <;> rfl

/-- `tilesize = k*VL` (R114). -/
theorem tileSize_eq (v : VecLen) (es : ESize) : tileSize v.bits es = sideOf v.bits es * v.bits := by
  cases v <;> cases es <;> rfl

/-- The tiles of one element size have `VL DIV 8` rows together (R23). -/
theorem side_mul_tiles (v : VecLen) (es : ESize) : sideOf v.bits es * es.tiles = v.bits / 8 := by
  cases v <;> cases es <;> rfl

theorem dim_pos (v : VecLen) (es : ESize) : 0 < dimOf v.bits es := by
  cases v <;> cases es <;> decide

theorem tiles_pos (es : ESize) : 0 < es.tiles := by cases es <;> decide

theorem vl_le_max (v : VecLen) : v.bits ≤ maxVL := by cases v <;> decide

theorem vectors_le_max (v : VecLen) : v.bits / 8 ≤ maxVectors := by cases v <;> decide

/-- An element of a row-major matrix of elements is an element of its row (R15). -/
theorem elem_of_row {w : Nat} (x : BitVec w) (k size vl r c : Nat) (hk : k * size = vl) (hc : c < k) :
    elem x (r * k + c) size = elem (elem x r vl) c size := by
  apply BitVec.eq_of_getLsbD_eq
  intro b hb
  have h1 : (c + 1) * size ≤ k * size := Nat.mul_le_mul_right size hc
  have h2 : (c + 1) * size = c * size + size := Nat.succ_mul c size
  have h3 : (r * k + c) * size = r * vl + c * size := by rw [← hk]; ring
  rw [getLsbD_elem, getLsbD_elem, getLsbD_elem, h3, Nat.add_assoc, decide_eq_true (show c * size + b < vl by omega)]
  simp

/-- Row `r` of a tile that is read is its array vector (R24). -/
theorem row_zaTileRead (s : State) (t : Nat) (es : ESize) (r : Nat) (hr : r < sideOf (currentVL s) es) :
    elem (zaTileRead s t es) r (currentVL s) = zaVector s (tileVector es t r) := by
  refine forLoop_one (fun x => elem x r (currentVL s)) _ _ _ r _ hr (fun x => ?_) (fun i _ hne x => ?_)
  · refine elem_setElem_same _ _ _ _ ?_
    rw [show tileSize (currentVL s) es = sideOf (currentVL s) es * currentVL s from tileSize_eq s.params.vl es]
    exact Nat.mul_le_mul_right _ hr
  · exact elem_setElem_ne _ _ _ _ _ hne

/-- Element `r*k+c` of a tile that is read is tile element `(r, c)` (R15, R24). -/
theorem elem_zaTileRead (s : State) (t : Nat) (es : ESize) (r c : Nat) (hr : r < sideOf (currentVL s) es)
    (hc : c < sideOf (currentVL s) es) :
    elem (zaTileRead s t es) (r * sideOf (currentVL s) es + c) es.bits = tileElem s es t r c := by
  have hkb : sideOf (currentVL s) es * es.bits = currentVL s := side_mul_bits s.params.vl es
  rw [elem_of_row _ _ _ _ _ _ hkb hc, row_zaTileRead s t es r hr]
  rfl

/-- Every bit of ZA after a tile is written: the tile's rows hold the value's rows, every other bit is as it was
(R24). -/
theorem getLsbD_zaTileWrite (s : State) (t : Nat) (es : ESize) (v : BitVec (tileSize (currentVL s) es)) (i : Nat)
    (hi : i < maxVectors) (b : Nat) :
    (zaTileWrite s t es v)[i].getLsbD b =
      if i < currentVL s / 8 ∧ i % es.tiles = t ∧ b < currentVL s then
        (elem v (i / es.tiles) (currentVL s)).getLsbD b
      else s.za[i].getLsbD b := by
  have hvl : currentVL s ≤ maxVL := vl_le_max s.params.vl
  simp only [zaTileWrite, mapVector_getElem, inTile, Bool.and_eq_true, decide_eq_true_eq]
  by_cases h1 : i < currentVL s / 8 ∧ i % es.tiles = t
  · rw [if_pos h1, getLsbD_setElem]
    by_cases h2 : b < currentVL s
    · rw [if_pos ⟨by omega, by omega, by omega⟩, if_pos ⟨h1.1, h1.2, h2⟩, Nat.zero_mul, Nat.sub_zero]
    · rw [if_neg (by omega), if_neg (by tauto)]
  · rw [if_neg h1, if_neg (by tauto)]

/-- The array vectors of a tile lie inside ZA (R23, R24). -/
theorem tileVector_lt (v : VecLen) (es : ESize) (t r : Nat) (ht : t < es.tiles) (hr : r < sideOf v.bits es) :
    tileVector es t r < v.bits / 8 := by
  rw [← side_mul_tiles v es]
  have h : (r + 1) * es.tiles ≤ sideOf v.bits es * es.tiles := Nat.mul_le_mul_right _ hr
  have h2 : (r + 1) * es.tiles = r * es.tiles + es.tiles := Nat.succ_mul r _
  unfold tileVector
  omega

/-- A row's array vector gives back the tile and the row (R24). -/
theorem tileVector_mod (es : ESize) (t r : Nat) (ht : t < es.tiles) : tileVector es t r % es.tiles = t := by
  rw [tileVector, Nat.add_mul_mod_self_right, Nat.mod_eq_of_lt ht]

theorem tileVector_div (es : ESize) (t r : Nat) (ht : t < es.tiles) : tileVector es t r / es.tiles = r := by
  rw [tileVector, Nat.add_mul_div_right _ _ (tiles_pos es), Nat.div_eq_of_lt ht, Nat.zero_add]

/-- Reading an element of a tile just written (R24). -/
theorem tileElem_zaTileWrite (s : State) (t : Nat) (es : ESize) (v : BitVec (tileSize (currentVL s) es)) (r c : Nat)
    (ht : t < es.tiles) (hr : r < sideOf (currentVL s) es) (hc : c < sideOf (currentVL s) es) :
    tileElem (s.withZa (zaTileWrite s t es v)) es t r c = elem v (r * sideOf (currentVL s) es + c) es.bits := by
  have hin : tileVector es t r < currentVL s / 8 := tileVector_lt s.params.vl es t r ht hr
  have hmax : tileVector es t r < maxVectors := Nat.lt_of_lt_of_le hin (vectors_le_max s.params.vl)
  have hkb : sideOf (currentVL s) es * es.bits = currentVL s := side_mul_bits s.params.vl es
  rw [elem_of_row _ _ _ _ _ _ hkb hc]
  apply BitVec.eq_of_getLsbD_eq
  intro b hb
  have h1 : (c + 1) * es.bits ≤ sideOf (currentVL s) es * es.bits := Nat.mul_le_mul_right _ hc
  have h2 : (c + 1) * es.bits = c * es.bits + es.bits := Nat.succ_mul c _
  have h3 : c * es.bits + b < currentVL s := by omega
  have hvl : currentVL (s.withZa (zaTileWrite s t es v)) = currentVL s := rfl
  rw [tileElem, getLsbD_elem, zaVector, dif_pos hmax, BitVec.getLsbD_setWidth, hvl]
  simp only [State.withZa_za]
  rw [getLsbD_zaTileWrite s t es v _ hmax, if_pos ⟨hin, tileVector_mod es t r ht, h3⟩, tileVector_div es t r ht,
    getLsbD_elem, getLsbD_elem, getLsbD_elem]
  simp [h3, hb]

end Sys2Proof.Machine
end

