-- ==== Sys2Proof/Laws/Ops.lean ====
section
/-! SUPPORT. What the shared operations can do: the loops of the Operation element by element (R117 to R119), the whole
operation, the meaning on a record, and a step. -/

namespace Sys2Proof.Machine

/-- A pair of coordinates is given back by its row-major index. -/
theorem rowMajor_inj (k r c r' c' : Nat) (hc : c < k) (hc' : c' < k) (h : r * k + c = r' * k + c') : r = r' ∧ c = c' := by
  have hk : 0 < k := by omega
  have h1 : (r * k + c) / k = r := by
    rw [Nat.mul_comm, Nat.mul_add_div hk, Nat.div_eq_of_lt hc, Nat.add_zero]
  have h2 : (r' * k + c') / k = r' := by
    rw [Nat.mul_comm, Nat.mul_add_div hk, Nat.div_eq_of_lt hc', Nat.add_zero]
  have hr : r = r' := by rw [← h1, ← h2, h]
  subst hr
  exact ⟨rfl, by omega⟩

/-- A coordinate is its block and its offset in the block. -/
theorem block_inj (d R x R' x' : Nat) (hx : x < d) (hx' : x' < d) (h : R * d + x = R' * d + x') : R = R' ∧ x = x' :=
  rowMajor_inj d R x R' x' hx hx' h

/-- Each element of the loops' result (R117, R118): the one iteration `(outprod, row, col)` of its quarter-tile assigns
it, from the snapshot and the two source registers of that quarter. -/
theorem elem_outerProducts (s : State) (rec : Record) (op3 init : BitVec (tileSize (currentVL s) rec.esize)) (r c : Nat)
    (hr : r < sideOf (currentVL s) rec.esize) (hc : c < sideOf (currentVL s) rec.esize) :
    elem (outerProducts s rec op3 init) (r * sideOf (currentVL s) rec.esize + c) rec.esize.bits =
      fpMulAddZA s.params.fpUnit rec.esize
        (elem op3 (r * sideOf (currentVL s) rec.esize + c) rec.esize.bits)
        (firstElem s rec (zRead s (groupRegister rec.n rec.nreg.count (c / dimOf (currentVL s) rec.esize))) r)
        (elem (zRead s (groupRegister rec.m rec.mreg.count (r / dimOf (currentVL s) rec.esize))) c rec.esize.bits)
        s.fpcr := by
  have hside : sideOf (currentVL s) rec.esize = 2 * dimOf (currentVL s) rec.esize := side_eq_two_dim s.params.vl rec.esize
  have hts : tileSize (currentVL s) rec.esize =
      sideOf (currentVL s) rec.esize * (sideOf (currentVL s) rec.esize * rec.esize.bits) := by
    rw [show sideOf (currentVL s) rec.esize * rec.esize.bits = currentVL s from side_mul_bits s.params.vl rec.esize]
    exact tileSize_eq s.params.vl rec.esize
  have hd : 0 < dimOf (currentVL s) rec.esize := dim_pos s.params.vl rec.esize
  generalize hdim : dimOf (currentVL s) rec.esize = d at *
  generalize hk : sideOf (currentVL s) rec.esize = k at *
  have hR : r / d < 2 := Nat.div_lt_of_lt_mul (by omega)
  have hC : c / d < 2 := Nat.div_lt_of_lt_mul (by omega)
  have hrd : r / d * d + r % d = r := by rw [Nat.mul_comm]; exact Nat.div_add_mod r d
  have hcd : c / d * d + c % d = c := by rw [Nat.mul_comm]; exact Nat.div_add_mod c d
  have hidx : ∀ a b, a * d * 2 + b = a * k + b := fun a b => by rw [hside]; ring
  have hfit : (r * k + c + 1) * rec.esize.bits ≤ tileSize (currentVL s) rec.esize := by
    rw [hts, ← Nat.mul_assoc]
    refine Nat.mul_le_mul_right _ ?_
    have : (r + 1) * k ≤ k * k := Nat.mul_le_mul_right k hr
    have h2 : (r + 1) * k = r * k + k := Nat.succ_mul r k
    omega
  have hlt : ∀ R x, R < 2 → x < d → R * d + x < k := fun R x h1 h2 => by
    have : (R + 1) * d ≤ 2 * d := Nat.mul_le_mul_right d h1
    have h3 : (R + 1) * d = R * d + d := Nat.succ_mul R d
    omega
  unfold outerProducts
  simp only [hdim, hidx]
  have hquarter : ∀ a b, b < 2 → (2 * a + b) / 2 = a ∧ (2 * a + b) % 2 = b := fun a b h => by omega
  have hdiv : (2 * (r / d) + c / d) / 2 = r / d := (hquarter _ _ hC).1
  have hmod : (2 * (r / d) + c / d) % 2 = c / d := (hquarter _ _ hC).2
  refine forLoop_one (fun x => elem x (r * k + c) rec.esize.bits) 4 _ init (2 * (r / d) + c / d) _ (by omega)
    (fun x => ?_) (fun o ho hne x => ?_)
  · simp only [hdiv, hmod]
    refine forLoop_one (fun x => elem x (r * k + c) rec.esize.bits) d _ x (r % d) _ (Nat.mod_lt _ hd) (fun y => ?_)
      (fun row hrow hne y => ?_)
    · refine forLoop_one (fun x => elem x (r * k + c) rec.esize.bits) d _ y (c % d) _ (Nat.mod_lt _ hd) (fun z => ?_)
        (fun col hcol hne z => ?_)
      · simp only [hrd, hcd]
        exact elem_setElem_same _ _ _ _ hfit
      · refine elem_setElem_ne _ _ _ _ _ (fun he => hne ?_)
        have := (rowMajor_inj k _ _ _ _ (hlt _ _ hC hcol) hc he).2
        exact (block_inj d _ _ _ _ hcol (Nat.mod_lt _ hd) (this.trans hcd.symm)).2
    · refine forLoop_keep (fun x => elem x (r * k + c) rec.esize.bits) d _ y (fun col hcol z => ?_)
      refine elem_setElem_ne _ _ _ _ _ (fun he => hne ?_)
      have := (rowMajor_inj k _ _ _ _ (hlt _ _ hC hcol) hc he).1
      exact (block_inj d _ _ _ _ hrow (Nat.mod_lt _ hd) (this.trans hrd.symm)).2
  · refine forLoop_keep (fun x => elem x (r * k + c) rec.esize.bits) d _ x (fun row hrow y => ?_)
    refine forLoop_keep (fun x => elem x (r * k + c) rec.esize.bits) d _ y (fun col hcol z => ?_)
    refine elem_setElem_ne _ _ _ _ _ (fun he => hne ?_)
    obtain ⟨h1, h2⟩ := rowMajor_inj k _ _ _ _ (hlt _ _ (Nat.mod_lt _ (by omega)) hcol) hc he
    have h3 := (block_inj d _ _ _ _ hrow (Nat.mod_lt _ hd) (h1.trans hrd.symm)).1
    have h4 := (block_inj d _ _ _ _ hcol (Nat.mod_lt _ hd) (h2.trans hcd.symm)).1
    omega

/-- Each element of the tile after the Operation (R120, R121). -/
theorem tileElem_operation (s : State) (rec : Record) (r c : Nat) (hda : rec.da < rec.esize.tiles)
    (hr : r < sideOf (currentVL s) rec.esize) (hc : c < sideOf (currentVL s) rec.esize) :
    tileElem (operation s rec) rec.esize rec.da r c =
      fpMulAddZA s.params.fpUnit rec.esize (tileElem s rec.esize rec.da r c)
        (firstElem s rec (zRead s (groupRegister rec.n rec.nreg.count (c / dimOf (currentVL s) rec.esize))) r)
        (zElem s rec.esize (groupRegister rec.m rec.mreg.count (r / dimOf (currentVL s) rec.esize)) c) s.fpcr := by
  rw [operation, tileElem_zaTileWrite s _ _ _ r c hda hr hc, elem_outerProducts s rec _ _ r c hr hc,
    elem_zaTileRead s _ _ r c hr hc]
  rfl

/-- What the meaning on a record can answer (R129, R173): the fault of an absent feature, the trap of the enable check,
or the Operation and the next `pc`. -/
theorem fmop4a_cases (rec : Record) (s : State) :
    (featuresPresent rec.esize s.params = false ∧ fmop4a rec s = .fault .undefined) ∨
      (featuresPresent rec.esize s.params = true ∧
        ∃ why, enableCheck s = some why ∧ fmop4a rec s = .fault (.smeAccessTrap why)) ∨
      (featuresPresent rec.esize s.params = true ∧ enableCheck s = none ∧
        fmop4a rec s = .next ((operation s rec).withPc (s.pc + 4))) := by
  unfold fmop4a raise
  cases hf : featuresPresent rec.esize s.params with
  | false => simp
  | true => cases he : enableCheck s <;> simp

/-- The state after the meaning on a record, if it answers one. -/
theorem fmop4a_next {rec : Record} {s t : State} (h : fmop4a rec s = .next t) :
    featuresPresent rec.esize s.params = true ∧ enableCheck s = none ∧ t = (operation s rec).withPc (s.pc + 4) := by
  rcases fmop4a_cases rec s with ⟨-, h2⟩ | ⟨-, _, -, h2⟩ | ⟨h1, h2, h3⟩
  · rw [h2] at h; cases h
  · rw [h2] at h; cases h
  · rw [h3] at h; exact ⟨h1, h2, by injection h with h; exact h.symm⟩

/-- Every instruction's meaning is the shared operation on its record (R100). -/
theorem exec_eq (i : Instr) (s : State) : exec i s = fmop4a i.record s := by cases i <;> rfl

/-- The enable check returns exactly when SME is permitted, Streaming SVE mode is on and ZA is on (R172). -/
theorem enableCheck_eq_none (s : State) :
    enableCheck s = none ↔ s.params.smeAccessEnabled = true ∧ s.pstateSM = true ∧ s.pstateZA = true := by
  unfold enableCheck
  cases s.params.smeAccessEnabled <;> cases s.pstateSM <;> cases s.pstateZA <;> simp

/-- What a step can answer (R170). -/
theorem step_cases (s : State) :
    (∃ e, fetchWord s = .error e ∧ step s = .refused e) ∨
      (∃ w, fetchWord s = .ok w ∧ decodeWord w = none ∧ step s = .refused .notThisInstruction) ∨
      (∃ w i, fetchWord s = .ok w ∧ decodeWord w = some i ∧ step s = fmop4a i.record s) := by
  unfold step
  cases hf : fetchWord s with
  | error e => exact .inl ⟨e, rfl, rfl⟩
  | ok w =>
    cases hd : decodeWord w with
    | none => exact .inr (.inl ⟨w, rfl, hd, by simp [hd]⟩)
    | some i => exact .inr (.inr ⟨w, i, rfl, hd, by simp [hd, exec_eq]⟩)

/-- The one thing a step that goes on does: the Operation of a fetched instruction, and the next `pc`. -/
theorem step_next {s t : State} (h : step s = .next t) :
    ∃ w i, fetchWord s = .ok w ∧ decodeWord w = some i ∧ featuresPresent i.record.esize s.params = true ∧
      enableCheck s = none ∧ t = (operation s i.record).withPc (s.pc + 4) := by
  rcases step_cases s with ⟨e, -, h2⟩ | ⟨w, -, -, h2⟩ | ⟨w, i, h1, h2, h3⟩
  · rw [h2] at h; cases h
  · rw [h2] at h; cases h
  · exact ⟨w, i, h1, h2, fmop4a_next (h3 ▸ h)⟩

end Sys2Proof.Machine
end

