-- ==== Sys2Proof/Laws/PerInstr.lean ====
section
/-! SUPPORT. Per instruction: the record of a well-formed instruction is legal (R100). -/

namespace Sys2Proof.Laws.RecordLegal

/-- A well-formed instruction's decoded record meets R100. -/
def Statement (i : Instr) : Prop := i.wf = true → i.record.wf = true

/-- The record's constraints from the operands' (R75, R76). -/
theorem of_operands (es : ESize) (n m : BitVec 5) (a b : NumRegs) (da : Nat) (hda : da < es.tiles)
    (h : (firstSourceLegal n && secondSourceLegal m) = true) : (Record.mk es n m a b da false).wf = true := by
  simp only [Bool.and_eq_true] at h
  simp [Record.wf, h.1, h.2, hda]

theorem fmop4aHSingleMultiple (da : BitVec 1) (n m : BitVec 5) : Statement (.fmop4aHSingleMultiple da n m) :=
  fun h => of_operands _ _ _ _ _ _ da.isLt h

theorem fmop4aHSingle (da : BitVec 1) (n m : BitVec 5) : Statement (.fmop4aHSingle da n m) :=
  fun h => of_operands _ _ _ _ _ _ da.isLt h

theorem fmop4aHMultipleSingle (da : BitVec 1) (n m : BitVec 5) : Statement (.fmop4aHMultipleSingle da n m) :=
  fun h => of_operands _ _ _ _ _ _ da.isLt h

theorem fmop4aHMultiple (da : BitVec 1) (n m : BitVec 5) : Statement (.fmop4aHMultiple da n m) :=
  fun h => of_operands _ _ _ _ _ _ da.isLt h

theorem fmop4aSSingleMultiple (da : BitVec 2) (n m : BitVec 5) : Statement (.fmop4aSSingleMultiple da n m) :=
  fun h => of_operands _ _ _ _ _ _ da.isLt h

theorem fmop4aSSingle (da : BitVec 2) (n m : BitVec 5) : Statement (.fmop4aSSingle da n m) :=
  fun h => of_operands _ _ _ _ _ _ da.isLt h

theorem fmop4aSMultipleSingle (da : BitVec 2) (n m : BitVec 5) : Statement (.fmop4aSMultipleSingle da n m) :=
  fun h => of_operands _ _ _ _ _ _ da.isLt h

theorem fmop4aSMultiple (da : BitVec 2) (n m : BitVec 5) : Statement (.fmop4aSMultiple da n m) :=
  fun h => of_operands _ _ _ _ _ _ da.isLt h

theorem fmop4aDSingleMultiple (da : BitVec 3) (n m : BitVec 5) : Statement (.fmop4aDSingleMultiple da n m) :=
  fun h => of_operands _ _ _ _ _ _ da.isLt h

theorem fmop4aDSingle (da : BitVec 3) (n m : BitVec 5) : Statement (.fmop4aDSingle da n m) :=
  fun h => of_operands _ _ _ _ _ _ da.isLt h

theorem fmop4aDMultipleSingle (da : BitVec 3) (n m : BitVec 5) : Statement (.fmop4aDMultipleSingle da n m) :=
  fun h => of_operands _ _ _ _ _ _ da.isLt h

theorem fmop4aDMultiple (da : BitVec 3) (n m : BitVec 5) : Statement (.fmop4aDMultiple da n m) :=
  fun h => of_operands _ _ _ _ _ _ da.isLt h

end Sys2Proof.Laws.RecordLegal
end

