-- ==== Sys2Proof/Laws/Program.lean ====
section
/-! SUPPORT. The text of a placed program (R194), for any aligned base: word `k` of the list is fetched at `base + 4*k`
modulo 2^64, and nothing is placed past the last word. -/

namespace Sys2Proof.Machine

@[simp] theorem startProgram_pc (s : State) (base : Addr) (ws : List Word) : (startProgram s base ws).pc = base := rfl
@[simp] theorem startProgram_text (s : State) (base : Addr) (ws : List Word) :
    (startProgram s base ws).text = placeProgram [] base ws := rfl

/-- Placing a program keeps the canonical form, at any base. -/
theorem placeProgram_wf (ws : List Word) (mem : Memory) (base : Addr) (h : mem.wf) : (placeProgram mem base ws).wf := by
  induction ws generalizing mem base with
  | nil => exact h
  | cons w ws ih => exact ih _ _ (placeWord_wf mem base w h)

/-- A word's address in the program, as a number. -/
theorem toNat_wordAddr (base : Addr) (k : Nat) :
    (base + BitVec.ofNat 64 (4 * k)).toNat = (base.toNat + 4 * k) % 2 ^ 64 := by
  rw [BitVec.toNat_add, BitVec.toNat_ofNat, Nat.add_mod_mod]

/-- A placed program leaves every byte outside its words as it was. -/
theorem memRead_placeProgram_outside (ws : List Word) (mem : Memory) (base : Addr) (a : Nat) (h : mem.wf)
    (hb : base.toNat % 4 = 0)
    (ha : ∀ k < ws.length, a < (base.toNat + 4 * k) % 2 ^ 64 ∨ (base.toNat + 4 * k) % 2 ^ 64 + 4 ≤ a) :
    memRead (placeProgram mem base ws) a = memRead mem a := by
  induction ws generalizing mem base with
  | nil => rfl
  | cons w ws ih =>
    have hlt := base.isLt
    have hb4 : (base + 4).toNat = (base.toNat + 4) % 2 ^ 64 := toNat_wordAddr base 1
    have h0 := ha 0 (by simp)
    rw [placeProgram, ih _ _ (placeWord_wf mem base w h) (by omega) fun k hk => ?_,
      memRead_placeWord mem base w a h hb, if_neg (by omega)]
    have := ha (k + 1) (by simpa using hk)
    rw [hb4]
    omega

/-- The bytes of the program's words stand where R194 puts them. -/
theorem memRead_placeProgram (ws : List Word) (mem : Memory) (base : Addr) (k j : Nat) (h : mem.wf)
    (hb : base.toNat % 4 = 0) (hl : 4 * ws.length ≤ 2 ^ 64) (hk : k < ws.length) (hj : j < 4) :
    memRead (placeProgram mem base ws) ((base + BitVec.ofNat 64 (4 * k)).toNat + j) = some (byteOfWord ws[k] j) := by
  induction ws generalizing mem base k with
  | nil => simp at hk
  | cons w ws ih =>
    rw [List.length_cons] at hl hk
    have hlt := base.isLt
    have hb4 : (base + 4).toNat = (base.toNat + 4) % 2 ^ 64 := toNat_wordAddr base 1
    have hw := placeWord_wf mem base w h
    rw [placeProgram]
    cases k with
    | zero =>
      rw [toNat_wordAddr, memRead_placeProgram_outside ws _ _ _ hw (by omega) fun k hk => by rw [hb4]; omega,
        memRead_placeWord mem base w _ h hb, if_pos (by omega), Nat.mul_zero, Nat.add_zero, Nat.mod_eq_of_lt hlt,
        Nat.add_sub_cancel_left]
      rfl
    | succ k =>
      have e : base + BitVec.ofNat 64 (4 * (k + 1)) = base + 4 + BitVec.ofNat 64 (4 * k) := by
        apply BitVec.eq_of_toNat_eq
        rw [toNat_wordAddr, toNat_wordAddr, hb4]
        omega
      rw [e]
      exact ih _ _ k hw (by omega) (by omega) (by omega)

/-- The word fetched at the `k`th address of a program, in any state whose text the program is. -/
theorem fetchWord_placeProgram (ws : List Word) (base : Addr) (k : Nat) (u : State) (hb : base.toNat % 4 = 0)
    (hl : 4 * ws.length ≤ 2 ^ 64) (hk : k < ws.length) (ht : u.text = placeProgram [] base ws)
    (hpc : u.pc = base + BitVec.ofNat 64 (4 * k)) : fetchWord u = .ok ws[k] := by
  refine fetchWord_of_bytes u _ ?_ fun j hj => ?_
  · rw [hpc, toNat_wordAddr]
    omega
  · rw [ht, hpc]
    exact memRead_placeProgram ws [] base k j (by decide) hb hl hk hj

/-- Where the run of a program is final, no word is left to fetch. -/
theorem fetchWord_final (ws : List Word) (base : Addr) (u : State) (hb : base.toNat % 4 = 0) (hl : 4 * ws.length < 2 ^ 64)
    (ht : u.text = placeProgram [] base ws) (hpc : Final base ws.length u) : fetchWord u = .error .noProgramWord := by
  have hlt := base.isLt
  have hp : u.pc.toNat = (base.toNat + 4 * ws.length) % 2 ^ 64 := by rw [hpc, toNat_wordAddr]
  have h0 : memRead u.text u.pc.toNat = none := by
    rw [ht, memRead_placeProgram_outside ws [] base _ (by decide) hb fun k hk => by omega]
    rfl
  rw [fetchWord, if_neg (by omega), h0]

end Sys2Proof.Machine
end

