-- ==== Sys2Proof/Tests/Slice0.lean ====
section
/-! SUPPORT. The model's own tests. Expected values are those of spec/95_test_vectors.md (derived there by hand from the
rules, not from this model) or are written out from the encoding table of R73; each theorem's comment says which. The
theorems named witness_… give a state and operands that meet every hypothesis of an obligation. -/

namespace Sys2Proof.Tests

-- One kernel evaluation at a time: each thread Lean opens for another reserves 256 MB of stack under check.sh's limit.
set_option Elab.async false

open Sys2Proof.Machine

/-! ### Well-formedness: each check refuses an ill-formed term (R75, R86, R100) -/

theorem test_wf_accepts : (Instr.fmop4aSMultiple 3 14 30).wf = true := by decide
theorem test_wf_odd_first_source : (Instr.fmop4aSMultiple 3 13 30).wf = false := by decide
theorem test_wf_first_source_range : (Instr.fmop4aHSingle 0 16 30).wf = false := by decide
theorem test_wf_odd_second_source : (Instr.fmop4aDSingleMultiple 7 14 29).wf = false := by decide
theorem test_wf_second_source_range : (Instr.fmop4aDMultipleSingle 7 14 14).wf = false := by decide
theorem test_record_wf_tile : (Record.mk .h 0 16 .one .one 2 false).wf = false := by decide
theorem test_record_wf_sub_op : (Record.mk .h 0 16 .one .one 1 true).wf = false := by decide
/-- R86, each rejection of an assembler. -/
theorem test_line_suffix : (AsmLine.mk 0 .s (.reg 0 .h) (.reg 16 .s)).problem = some .suffixesDiffer := by decide
theorem test_line_tile : (AsmLine.mk 4 .s (.reg 0 .s) (.reg 16 .s)).problem = some .tileOutOfRange := by decide
theorem test_line_first : (AsmLine.mk 0 .s (.reg 16 .s) (.reg 16 .s)).problem = some .firstSourceOutOfRange := by decide
theorem test_line_second : (AsmLine.mk 0 .s (.reg 0 .s) (.reg 14 .s)).problem = some .secondSourceOutOfRange := by decide
theorem test_line_odd : (AsmLine.mk 0 .s (.reg 1 .s) (.reg 16 .s)).problem = some .oddRegister := by decide
theorem test_line_pair : (AsmLine.mk 0 .s (.pair 0 .s 2 .s) (.reg 16 .s)).problem = some .pairNotConsecutive := by decide

/-! ### Decode: words written out bit by bit from R73, `bits 31:21, M, Zm, 0000000, N, Zn, 0, S, low bits` -/

/-- Half, single and multiple: M=1, N=0, Zm=7, Zn=5, ZAda=1. -/
theorem test_decode_h_single_multiple :
    decodeWord (0b10000001000#11 ++ 1#1 ++ 7#3 ++ 0#7 ++ 0#1 ++ 5#3 ++ 0#1 ++ 0#1 ++ 0b100#3 ++ 1#1) =
      some (.fmop4aHSingleMultiple 1 10 30) := by decide
/-- Half, single: M=0, N=0, Zm=1, Zn=7, ZAda=0. -/
theorem test_decode_h_single :
    decodeWord (0b10000001000#11 ++ 0#1 ++ 1#3 ++ 0#7 ++ 0#1 ++ 7#3 ++ 0#1 ++ 0#1 ++ 0b100#3 ++ 0#1) =
      some (.fmop4aHSingle 0 14 18) := by decide
/-- Half, multiple and single: M=0, N=1, Zm=4, Zn=1, ZAda=1. -/
theorem test_decode_h_multiple_single :
    decodeWord (0b10000001000#11 ++ 0#1 ++ 4#3 ++ 0#7 ++ 1#1 ++ 1#3 ++ 0#1 ++ 0#1 ++ 0b100#3 ++ 1#1) =
      some (.fmop4aHMultipleSingle 1 2 24) := by decide
/-- Half, multiple: M=1, N=1, Zm=2, Zn=6, ZAda=0. -/
theorem test_decode_h_multiple :
    decodeWord (0b10000001000#11 ++ 1#1 ++ 2#3 ++ 0#7 ++ 1#1 ++ 6#3 ++ 0#1 ++ 0#1 ++ 0b100#3 ++ 0#1) =
      some (.fmop4aHMultiple 0 12 20) := by decide
/-- Single precision, single and multiple: M=1, N=0, Zm=3, Zn=4, ZAda=2. -/
theorem test_decode_s_single_multiple :
    decodeWord (0b10000000000#11 ++ 1#1 ++ 3#3 ++ 0#7 ++ 0#1 ++ 4#3 ++ 0#1 ++ 0#1 ++ 0#2 ++ 2#2) =
      some (.fmop4aSSingleMultiple 2 8 22) := by decide
/-- Single precision, single: M=0, N=0, Zm=6, Zn=2, ZAda=1. -/
theorem test_decode_s_single :
    decodeWord (0b10000000000#11 ++ 0#1 ++ 6#3 ++ 0#7 ++ 0#1 ++ 2#3 ++ 0#1 ++ 0#1 ++ 0#2 ++ 1#2) =
      some (.fmop4aSSingle 1 4 28) := by decide
/-- Single precision, multiple and single: M=0, N=1, Zm=0, Zn=7, ZAda=3. -/
theorem test_decode_s_multiple_single :
    decodeWord (0b10000000000#11 ++ 0#1 ++ 0#3 ++ 0#7 ++ 1#1 ++ 7#3 ++ 0#1 ++ 0#1 ++ 0#2 ++ 3#2) =
      some (.fmop4aSMultipleSingle 3 14 16) := by decide
/-- Single precision, multiple: M=1, N=1, Zm=7, Zn=7, ZAda=3 (the word `0x801E03C3` of section 2). -/
theorem test_decode_s_multiple : decodeWord 0x801E03C3#32 = some (.fmop4aSMultiple 3 14 30) := by decide
/-- Double precision, single and multiple: M=1, N=0, Zm=5, Zn=3, ZAda=6. -/
theorem test_decode_d_single_multiple :
    decodeWord (0b10000000110#11 ++ 1#1 ++ 5#3 ++ 0#7 ++ 0#1 ++ 3#3 ++ 0#1 ++ 0#1 ++ 1#1 ++ 6#3) =
      some (.fmop4aDSingleMultiple 6 6 26) := by decide
/-- Double precision, single (the word `0x80C0000C` of section 2: tile 4). -/
theorem test_decode_d_single : decodeWord 0x80C0000C#32 = some (.fmop4aDSingle 4 0 16) := by decide
/-- Double precision, multiple and single: M=0, N=1, Zm=1, Zn=6, ZAda=1. -/
theorem test_decode_d_multiple_single :
    decodeWord (0b10000000110#11 ++ 0#1 ++ 1#3 ++ 0#7 ++ 1#1 ++ 6#3 ++ 0#1 ++ 0#1 ++ 1#1 ++ 1#3) =
      some (.fmop4aDMultipleSingle 1 12 18) := by decide
/-- Double precision, multiple (the word `0x80DE03CF` of section 2: tile 7). -/
theorem test_decode_d_multiple : decodeWord 0x80DE03CF#32 = some (.fmop4aDMultiple 7 14 30) := by decide
/-- Section 2, nearest words that are not this instruction. -/
theorem test_decode_neighbours :
    [0x80000010#32, 0x80000020#32, 0x80010000#32, 0x80000400#32, 0x80000004#32, 0x81000000#32, 0x8100000A#32,
      0x80C00000#32, 0x80800000#32, 0x00000000#32].map decodeWord = List.replicate 10 none := by decide
/-- Section 2, the bytes of `0x80120042` in memory order, one byte more, and one byte short. -/
theorem test_decode_bytes :
    decodeTableWord 32 0x80120042 = some (.fmop4aSSingleMultiple 2 2 18) ∧
      (match decodeBytes [0x42, 0x00, 0x12, 0x80, 0xAA] with | .ok (i, rest) => i == .fmop4aSSingleMultiple 2 2 18 && rest == [0xAA] | .error _ => false) = true ∧
      (match decodeBytes [0x42, 0x00, 0x12] with | .ok _ => false | .error e => e == .truncated) = true := by decide
/-- R81 template 12 and R86: a line, its word and its printing. -/
theorem test_assemble :
    (match assemble (AsmLine.mk 5 .d (.pair 14 .d 15 .d) (.pair 30 .d 31 .d)) with | .ok w => w == 0x80DE03CD#32 | .error _ => false) = true ∧
      disassemble (.fmop4aDMultiple 5 14 30) = AsmLine.mk 5 .d (.pair 14 .d 15 .d) (.pair 30 .d 31 .d) := by decide

/-- The parameters of reset with other features. -/
def featureParams (mop4 f16 f64 : Bool) : Params :=
  { Params.reset with haveSME_MOP4 := mop4, haveSME_F16F16 := f16, haveSME_F64F64 := f64 }

/-- Section 2, feature gating. -/
theorem test_feature_gating :
    decodeVerdict (featureParams false true true) 0x80000000#32 = .undefined ∧
      decodeVerdict (featureParams true false false) 0x80000000#32 = .fmop4a ⟨.s, 0, 16, .one, .one, 0, false⟩ ∧
      decodeVerdict (featureParams true false true) 0x81000008#32 = .undefined ∧
      decodeVerdict (featureParams false true true) 0x81000008#32 = .undefined ∧
      decodeVerdict (featureParams true true false) 0x81000008#32 = .fmop4a ⟨.h, 0, 16, .one, .one, 0, false⟩ ∧
      decodeVerdict (featureParams true true false) 0x80C00008#32 = .undefined ∧
      decodeVerdict (featureParams true false true) 0x80C00008#32 = .fmop4a ⟨.d, 0, 16, .one, .one, 0, false⟩ ∧
      decodeVerdict (featureParams false false false) 0x80000010#32 = .notThisInstruction := by decide

/-! ### The arithmetic of one element: section 4's vectors (addend, first, second, FPCR, result) -/

/-- Every vector gives its result. -/
def vectorsHold (es : ESize) (l : List (Nat × Nat × Nat × Nat × Nat)) : Bool :=
  l.all fun v =>
    fpMulAddReference es (BitVec.ofNat _ v.1) (BitVec.ofNat _ v.2.1) (BitVec.ofNat _ v.2.2.1) (BitVec.ofNat 64 v.2.2.2.1) ==
      BitVec.ofNat _ v.2.2.2.2

/-- Vectors 1 to 6. -/
theorem test_fp_single_nan : vectorsHold .s [
    (0x40400000, 0x3F800000, 0x40000000, 0x0, 0x40A00000),
    (0x7FC12345, 0x3F800000, 0x3F800000, 0x0, 0x7FC00000),
    (0x00000000, 0x7F800001, 0x3F800000, 0x0, 0x7FC00000),
    (0x00000000, 0x3F800000, 0xFFC00000, 0x0, 0x7FC00000),
    (0x3F800000, 0x7F800000, 0x00000000, 0x0, 0x7FC00000),
    (0x7FC00000, 0x00000000, 0x7F800000, 0x0, 0x7FC00000)] = true := by decide +kernel

/-- Vectors 7 to 18. -/
theorem test_fp_single_zero_inf : vectorsHold .s [
    (0x7F800000, 0xFF800000, 0x3F800000, 0x0, 0x7FC00000),
    (0x7F800000, 0x7F800000, 0x3F800000, 0x0, 0x7F800000),
    (0xFF800000, 0x3F800000, 0x3F800000, 0x0, 0xFF800000),
    (0x3F800000, 0xFF800000, 0x40000000, 0x0, 0xFF800000),
    (0x00000000, 0x00000000, 0x40A00000, 0x0, 0x00000000),
    (0x80000000, 0x80000000, 0x40A00000, 0x0, 0x80000000),
    (0x00000000, 0x80000000, 0x40A00000, 0x0, 0x00000000),
    (0x00000000, 0x80000000, 0x40A00000, 0x800000, 0x80000000),
    (0x80000000, 0x00000000, 0x40A00000, 0x0, 0x00000000),
    (0x3F800000, 0xBF800000, 0x3F800000, 0x0, 0x00000000),
    (0x3F800000, 0xBF800000, 0x3F800000, 0x800000, 0x80000000),
    (0xBF801000, 0x3F800800, 0x3F800800, 0x0, 0x33800000)] = true := by decide +kernel

/-- Vectors 19 to 30. -/
theorem test_fp_single_rounding : vectorsHold .s [
    (0x3F800000, 0x33800000, 0x3F800000, 0x0, 0x3F800000),
    (0x3F800000, 0x33800000, 0x3F800000, 0x400000, 0x3F800001),
    (0x3F800000, 0x33800000, 0x3F800000, 0x800000, 0x3F800000),
    (0x3F800000, 0x33800000, 0x3F800000, 0xC00000, 0x3F800000),
    (0xBF800000, 0xB3800000, 0x3F800000, 0x800000, 0xBF800001),
    (0xBF800000, 0xB3800000, 0x3F800000, 0xC00000, 0xBF800000),
    (0x3F800000, 0x34400000, 0x3F800000, 0x0, 0x3F800002),
    (0x00000000, 0x7F7FFFFF, 0x40000000, 0x0, 0x7F800000),
    (0x00000000, 0x7F7FFFFF, 0x40000000, 0xC00000, 0x7F7FFFFF),
    (0x00000000, 0x7F7FFFFF, 0x40000000, 0x800000, 0x7F7FFFFF),
    (0x00000000, 0xFF7FFFFF, 0x40000000, 0x400000, 0xFF7FFFFF),
    (0x00000000, 0xFF7FFFFF, 0x40000000, 0x800000, 0xFF800000)] = true := by decide +kernel

/-- Vectors 31 to 38. -/
theorem test_fp_single_tiny : vectorsHold .s [
    (0x00000000, 0x00000001, 0x4B000000, 0x0, 0x00800000),
    (0x00000000, 0x00000001, 0x4B000000, 0x1000000, 0x00000000),
    (0x00000001, 0x3F800000, 0x3F800000, 0x1000000, 0x3F800000),
    (0x00000000, 0x00800000, 0x3F000000, 0x0, 0x00400000),
    (0x00000000, 0x00800000, 0x3F000000, 0x1000000, 0x00000000),
    (0x00000000, 0x80800000, 0x3F000000, 0x1000000, 0x80000000),
    (0x00000000, 0x00800000, 0x00800000, 0x0, 0x00000000),
    (0x00000000, 0x00800000, 0x00800000, 0x400000, 0x00000001)] = true := by decide +kernel

/-- Vectors 39 to 47. -/
theorem test_fp_half : vectorsHold .h [
    (0x4200, 0x3C00, 0x4000, 0x0, 0x4500),
    (0x7C01, 0x3C00, 0x4000, 0x0, 0x7E00),
    (0x0000, 0x5C00, 0x5C00, 0x0, 0x7C00),
    (0x0000, 0x5BF8, 0x5BF8, 0x0, 0x7BF0),
    (0x6800, 0x3C00, 0x3C00, 0x0, 0x6800),
    (0x6800, 0x3C00, 0x3C00, 0x400000, 0x6801),
    (0x0000, 0x0001, 0x6400, 0x0, 0x0400),
    (0x0000, 0x0001, 0x6400, 0x80000, 0x0000),
    (0x3C00, 0x7C00, 0x8000, 0x0, 0x7E00)] = true := by decide +kernel

/-- Vectors 48 to 55. -/
theorem test_fp_double : vectorsHold .d [
    (0x4008000000000000, 0x3FF0000000000000, 0x4000000000000000, 0x0, 0x4014000000000000),
    (0x7FF8000000000001, 0x3FF0000000000000, 0x4000000000000000, 0x0, 0x7FF8000000000000),
    (0x3FF0000000000000, 0x3FF0000000000000, 0xFFF0000000000001, 0x0, 0x7FF8000000000000),
    (0xBFF0000004000000, 0x3FF0000002000000, 0x3FF0000002000000, 0x0, 0x3C90000000000000),
    (0x3FF0000000000000, 0x3CA0000000000000, 0x3FF0000000000000, 0x0, 0x3FF0000000000000),
    (0x3FF0000000000000, 0x3CA0000000000000, 0x3FF0000000000000, 0x400000, 0x3FF0000000000001),
    (0x7FF0000000000000, 0xFFF0000000000000, 0x3FF0000000000000, 0x0, 0x7FF8000000000000),
    (0x0000000000000000, 0x7FEFFFFFFFFFFFFF, 0x4000000000000000, 0x0, 0x7FF0000000000000)] = true := by decide +kernel

/-- With `AH = 1` vector 2 gives `FFC00000`; `FZ` without `FZ16` does not flush half precision. -/
theorem test_fp_controls :
    vectorsHold .s [(0x7FC12345, 0x3F800000, 0x3F800000, 0x2, 0xFFC00000)] = true ∧
      vectorsHold .h [(0x0000, 0x0001, 0x6400, 0x1000000, 0x0400)] = true := by decide +kernel

/-! ### Whole instructions: section 3's vectors at `VL = 128` -/

/-- A register whose elements, element 0 first, are given. -/
def vecOf (es : ESize) : List Nat → Nat → Vec
  | [], _ => 0
  | x :: xs, j => setElem (vecOf es xs (j + 1)) j es.bits (BitVec.ofNat es.bits x)

/-- An enabled state of one element size, with some Z registers given and every ZA element `acc`. -/
def tileState (es : ESize) (acc : Nat) (regs : List (Nat × List Nat)) : State :=
  { State.reset with
    pstateSM := true, pstateZA := true
    z := mapVector (fun i v => match regs.find? (fun p => p.1 == i) with | some p => vecOf es p.2 0 | none => v) State.reset.z
    za := mapVector (fun _ _ => vecOf es (List.replicate (128 / es.bits) acc) 0) State.reset.za }

/-- Row `r` of a tile in the next state, as numbers; nothing if there is no next state. -/
def rowAfter (a : Answer) (es : ESize) (t r : Nat) : List Nat :=
  match a with
  | .next s => (List.range (side s es)).map fun c => (tileElem s es t r c).toNat
  | _ => []

def singleRegs : List (Nat × List Nat) :=
  [(0, [0x3F800000, 0x40000000, 0x40400000, 0x40800000]), (2, [0x3F800000, 0x40000000, 0x40400000, 0x40800000]),
   (3, [0x40A00000, 0x40C00000, 0x40E00000, 0x41000000]), (16, [0x41200000, 0x41A00000, 0x41F00000, 0x42200000]),
   (18, [0x41200000, 0x41A00000, 0x41F00000, 0x42200000]), (19, [0x42C80000, 0x43480000, 0x43960000, 0x43C80000])]

def doubleRegs : List (Nat × List Nat) :=
  [(14, [0x4000000000000000, 0x4008000000000000]), (15, [0x4014000000000000, 0x401C000000000000]),
   (30, [0x4026000000000000, 0x402A000000000000]), (31, [0x4031000000000000, 0x4033000000000000])]

def halfRegs : List (Nat × List Nat) :=
  [(0, [0x3C00, 0x4000, 0x4200, 0x4400, 0x4500, 0x4600, 0x4700, 0x4800]),
   (1, [0x4880, 0x4900, 0x4980, 0x4A00, 0x4A80, 0x4B00, 0x4B80, 0x4C00]),
   (16, [0x3C00, 0xBC00, 0x3800, 0x4000, 0x4400, 0x4800, 0x4C00, 0x5000]),
   (17, [0x3400, 0x4200, 0xC000, 0x5400, 0xC400, 0x3E00, 0x0000, 0x5800])]

/-- TV-S1. -/
theorem test_s_single :
    [0, 3].map (rowAfter (exec (.fmop4aSSingle 0 0 16) (tileState .s 0x3F000000 singleRegs)) .s 0) =
      [[0x41280000, 0x41A40000, 0x41F40000, 0x42220000],
       [0x42220000, 0x42A10000, 0x42F10000, 0x43208000]] := by decide +kernel

/-- TV-S2, which tells the source's register selection from the transposed one. -/
theorem test_s_multiple :
    [0, 1, 2, 3].map (rowAfter (exec (.fmop4aSMultiple 1 2 18) (tileState .s 0 singleRegs)) .s 1) =
      [[0x41200000, 0x41A00000, 0x43160000, 0x43480000],
       [0x41A00000, 0x42200000, 0x43340000, 0x43700000],
       [0x43960000, 0x44160000, 0x45034000, 0x452F0000],
       [0x43C80000, 0x44480000, 0x45160000, 0x45480000]] := by decide +kernel

/-- TV-S3. -/
theorem test_s_single_multiple :
    [1, 2].map (rowAfter (exec (.fmop4aSSingleMultiple 2 2 18) (tileState .s 0 singleRegs)) .s 2) =
      [[0x41A00000, 0x42200000, 0x42700000, 0x42A00000],
       [0x43960000, 0x44160000, 0x44610000, 0x44960000]] := by decide +kernel

/-- TV-S4. -/
theorem test_s_multiple_single :
    [0, 3].map (rowAfter (exec (.fmop4aSMultipleSingle 3 2 18) (tileState .s 0 singleRegs)) .s 3) =
      [[0x41200000, 0x41A00000, 0x43160000, 0x43480000],
       [0x42200000, 0x42A00000, 0x43700000, 0x43A00000]] := by decide +kernel

/-- TV-D1. -/
theorem test_d_multiple :
    [0, 1].map (rowAfter (exec (.fmop4aDMultiple 5 14 30) (tileState .d 0x3FF0000000000000 doubleRegs)) .d 5) =
      [[0x4037000000000000, 0x4050800000000000],
       [0x404A000000000000, 0x4060C00000000000]] := by decide +kernel

/-- TV-D2. -/
theorem test_d_single :
    [0, 1].map (rowAfter (exec (.fmop4aDSingle 0 14 30) (tileState .d 0 doubleRegs)) .d 0) =
      [[0x4036000000000000, 0x403A000000000000],
       [0x4040800000000000, 0x4043800000000000]] := by decide +kernel

/-- TV-D3. -/
theorem test_d_single_multiple :
    [0, 1].map (rowAfter (exec (.fmop4aDSingleMultiple 0 14 30) (tileState .d 0 doubleRegs)) .d 0) =
      [[0x4036000000000000, 0x403A000000000000],
       [0x4049800000000000, 0x404C800000000000]] := by decide +kernel

/-- TV-D4. -/
theorem test_d_multiple_single :
    [0, 1].map (rowAfter (exec (.fmop4aDMultipleSingle 0 14 30) (tileState .d 0 doubleRegs)) .d 0) =
      [[0x4036000000000000, 0x4050400000000000],
       [0x4040800000000000, 0x4056C00000000000]] := by decide +kernel

/-- TV-H1. -/
theorem test_h_single :
    [2, 7].map (rowAfter (exec (.fmop4aHSingle 1 0 16) (tileState .h 0 halfRegs)) .h 1) =
      [[0x4200, 0xC200, 0x3E00, 0x4600, 0x4A00, 0x4E00, 0x5200, 0x5600],
       [0x4800, 0xC800, 0x4400, 0x4C00, 0x5000, 0x5400, 0x5800, 0x5C00]] := by decide +kernel

/-- TV-H2. -/
theorem test_h_multiple :
    [0, 4].map (rowAfter (exec (.fmop4aHMultiple 0 0 16) (tileState .h 0 halfRegs)) .h 0) =
      [[0x3C00, 0xBC00, 0x3800, 0x4000, 0x5080, 0x5480, 0x5880, 0x5C80],
       [0x3D00, 0x4B80, 0xC900, 0x5D00, 0xD280, 0x4CE0, 0x0000, 0x6680]] := by decide +kernel

/-- TV-H3. -/
theorem test_h_single_multiple :
    [3, 4].map (rowAfter (exec (.fmop4aHSingleMultiple 0 0 16) (tileState .h 0 halfRegs)) .h 0) =
      [[0x4400, 0xC400, 0x4000, 0x4800, 0x4C00, 0x5000, 0x5400, 0x5800],
       [0x3D00, 0x4B80, 0xC900, 0x5D00, 0xCD00, 0x4780, 0x0000, 0x6100]] := by decide +kernel

/-- TV-H4. -/
theorem test_h_multiple_single :
    [0, 7].map (rowAfter (exec (.fmop4aHMultipleSingle 0 0 16) (tileState .h 0 halfRegs)) .h 0) =
      [[0x3C00, 0xBC00, 0x3800, 0x4000, 0x5080, 0x5480, 0x5880, 0x5C80],
       [0x4800, 0xC800, 0x4400, 0x4C00, 0x5400, 0x5800, 0x5C00, 0x6000]] := by decide +kernel

/-- TV-S5: `VL = 256`, tile 8 by 8; row 4 in values 15, 150, 1500, 15000, 52, 520, 5200, 52000 and element (7, 7) 64000. -/
def wideState : State :=
  let s := tileState .s 0
    [(0, [0x3F800000, 0x40000000, 0x40400000, 0x40800000, 0x40A00000, 0x40C00000, 0x40E00000, 0x41000000]),
     (1, [0x41100000, 0x41200000, 0x41300000, 0x41400000, 0x41500000, 0x41600000, 0x41700000, 0x41800000]),
     (16, [0x3F800000, 0x41200000, 0x42C80000, 0x447A0000, 0x40000000, 0x41A00000, 0x43480000, 0x44FA0000]),
     (17, [0x40400000, 0x41F00000, 0x43960000, 0x453B8000, 0x40800000, 0x42200000, 0x43C80000, 0x457A0000])]
  { s with params := { s.params with vl := .vl256 } }

theorem test_wide_tile :
    rowAfter (exec (.fmop4aSMultiple 0 0 16) wideState) .s 0 4 =
        [0x41700000, 0x43160000, 0x44BB8000, 0x466A6000, 0x42500000, 0x44020000, 0x45A28000, 0x474B2000] ∧
      (rowAfter (exec (.fmop4aSMultiple 0 0 16) wideState) .s 0 7).getLast? = some 0x477A0000 := by decide +kernel

/-- TV-A1: after TV-S1 the double tiles 0 and 4 read the array vectors 0, 8 and 4, 12 (R24, R33). -/
theorem test_tile_placing :
    [(0, 0), (0, 1), (4, 0), (4, 1)].map
        (fun x => rowAfter (exec (.fmop4aSSingle 0 0 16) (tileState .s 0x3F000000 singleRegs)) .d x.1 x.2) =
      [[0x41A4000041280000, 0x4222000041F40000], [0x4272000041F40000, 0x42F1000042B50000],
       [0x4222000041A40000, 0x42A1000042720000], [0x42A1000042220000, 0x4320800042F10000]] := by decide +kernel

/-! ### Outcomes: section 5's vectors -/

/-- TV-S1's state with the word `0x80000000` at `pc` and the four conditions given. -/
def outcomeState (mop4 access sm za : Bool) : State :=
  { (tileState .s 0x3F000000 singleRegs).withFetchWord 32 0x80000000 with
    params := { Params.reset with haveSME_MOP4 := mop4, smeAccessEnabled := access }
    pstateSM := sm, pstateZA := za }

/-- The fault of an answer, and whether it is a next state. -/
def faultOf : Answer → Option Fault
  | .fault f => some f
  | _ => none

def goesOn : Answer → Bool
  | .next _ => true
  | _ => false

theorem next_of_goesOn {a : Answer} (h : goesOn a = true) : ∃ t, a = .next t := by
  cases a with
  | next t => exact ⟨t, rfl⟩
  | fault _ => cases h
  | refused _ => cases h

/-- E2 to E8. -/
theorem test_faults :
    [outcomeState false true true true, outcomeState false false false false, outcomeState true false true true,
      outcomeState true false false false, outcomeState true true false true, outcomeState true true false false,
      outcomeState true true true false].map (fun s => faultOf (step s)) =
    [some .undefined, some .undefined, some (.smeAccessTrap .accessTrap), some (.smeAccessTrap .accessTrap),
      some (.smeAccessTrap .notStreaming), some (.smeAccessTrap .notStreaming), some (.smeAccessTrap .inactiveZA)] := by
  decide +kernel

/-- E1: completed, `pc = P+4`. -/
theorem test_completed :
    (match step (outcomeState true true true true) with
      | .next t => t.pc == 4 && (tileElem t .s 0 3 3).toNat == 0x43208000
      | _ => false) = true := by decide +kernel

/-- E9: signalling NaNs everywhere and every trap-enable bit set: completed, every element the default NaN. -/
theorem test_no_fp_trap :
    rowAfter (exec (.fmop4aSSingle 0 0 16)
      { tileState .s 0x7F800001 [(0, List.replicate 4 0x7F800001), (16, List.replicate 4 0x7F800001)] with fpcr := 0x9F00 })
      .s 0 3 = List.replicate 4 0x7FC00000 := by decide +kernel

/-- R171, R172: the syndromes. -/
theorem test_syndrome : syndrome (.smeAccessTrap .inactiveZA) = (0x1D#6, some 3#3) := by decide

/-- Program 3 of section 6, mode RP, its first instruction: 2048 + 1 rounds up to 2050 (`6801`). -/
theorem test_rounding_mode :
    (rowAfter (exec (.fmop4aHSingle 0 0 16)
      { tileState .h 0x6800 [(0, List.replicate 8 0x3C00), (16, List.replicate 8 0x3C00)] with fpcr := 0x400000 })
      .h 0 5) = List.replicate 8 0x6801 := by decide +kernel

/-! ### Witnesses: the hypotheses of the obligations can be met -/

/-- Reset with the enables on. -/
def readyState : State := { State.reset with pstateSM := true, pstateZA := true }

/-- The same with a word at `pc`. -/
def atWord (w : Nat) : State := readyState.withFetchWord 32 w

theorem ready_h : Ready .h readyState := by decide
theorem ready_s : Ready .s readyState := by decide
theorem ready_d : Ready .d readyState := by decide

theorem witness_DecodeOfEncode : (Instr.fmop4aDMultiple 7 14 30).wf = true := by decide
theorem witness_EncodeOfDecode : decodeWord 0x80DE03CF#32 = some (.fmop4aDMultiple 7 14 30) := by decide
theorem witness_ClassesPairwiseDisjoint :
    ∃ c ∈ encodingTable, c.covers 0x80DE03CF#32 = true := ⟨_, by decide, (by decide :
      (EncodingClass.mk .d .two .two 0x80D00208#32 0xFFF1FE38#32).covers 0x80DE03CF#32 = true)⟩
theorem witness_EveryFieldValueDecodes :
    (EncodingClass.mk .d .two .two 0x80D00208#32 0xFFF1FE38#32) ∈ encodingTable ∧ 7 < ESize.d.tiles := by decide
theorem witness_DecodedRecordIsLegalAndAll :
    decodeWord 0x801E03C3#32 = some (.fmop4aSMultiple 3 14 30) := by decide

theorem witness_OtherWordsRefused :
    WordAtPc (atWord 0x80000010) 0x80000010#32 ∧ (∀ c ∈ encodingTable, 0x80000010#32 &&& c.mask ≠ c.matchBits) ∧
      ∃ c ∈ encodingTable, c.covers 0x80000000#32 = true := by
  refine ⟨by decide +kernel, by decide, ⟨.s, .one, .one, 0x80000000#32, 0xFFF1FE3C#32⟩, by decide, by decide⟩

theorem witness_StepRunsDecodedInstruction :
    WordAtPc (atWord 0x80000000) 0x80000000#32 ∧ decodeWord 0x80000000#32 = some (.fmop4aSSingle 0 0 16) := by
  exact ⟨by decide +kernel, by decide⟩

/-- One state for each answer of the verdict and of the enable check. -/
theorem witness_StepFollowsVerdict :
    WordAtPc (atWord 0x80000010) 0x80000010#32 ∧
      decodeVerdict (atWord 0x80000010).params 0x80000010#32 = .notThisInstruction ∧
      WordAtPc (outcomeState false true true true) 0x80000000#32 ∧
      decodeVerdict (outcomeState false true true true).params 0x80000000#32 = .undefined ∧
      WordAtPc (outcomeState true true true false) 0x80000000#32 ∧
      enableCheck (outcomeState true true true false) = some .inactiveZA ∧
      WordAtPc (atWord 0x80000000) 0x80000000#32 ∧ enableCheck (atWord 0x80000000) = none := by decide +kernel

theorem witness_FetchRefusals :
    (readyState.withPc 2).pc.toNat % 4 ≠ 0 ∧ readyState.pc.toNat % 4 = 0 ∧
      ∃ k < 4, memRead readyState.text (readyState.pc.toNat + k) = none :=
  ⟨by decide, by decide, 3, by decide, by decide⟩

theorem witness_PlacedWordRunsNext :
    Memory.wf (atWord 0x80000000).text ∧ (atWord 0x80000000).pc.toNat % 4 = 0 ∧
      decodeWord 0x80120042#32 = some (.fmop4aSSingleMultiple 2 2 18) := by
  exact ⟨by decide +kernel, by decide +kernel, by decide⟩

/-- Each precision with each of its features absent. -/
theorem witness_MissingFeatureIsUndefined :
    (Instr.fmop4aHSingle 0 0 16).record.esize = .h ∧ (Instr.fmop4aSSingle 0 0 16).record.esize = .s ∧
      (Instr.fmop4aDSingle 0 0 16).record.esize = .d ∧ (featureParams true false true).haveSME_F16F16 = false ∧
      (featureParams false true true).haveSME_MOP4 = false ∧ (featureParams true true false).haveSME_F64F64 = false := by
  decide

/-- Each reason's conditions. -/
theorem witness_EnableCheckReasons :
    featuresPresent .s (outcomeState true false true true).params = true ∧
      (outcomeState true false true true).params.smeAccessEnabled = false ∧
      (outcomeState true true false true).params.smeAccessEnabled = true ∧ (outcomeState true true false true).pstateSM = false ∧
      (outcomeState true true true false).pstateSM = true ∧ (outcomeState true true true false).pstateZA = false := by
  decide +kernel

/-- For SingleVectorsComplete, SingleAndMultipleVectorsComplete, MultipleAndSingleVectorsComplete and
MultipleVectorsComplete: the last legal operands and a state ready for each precision. -/
theorem witness_ShapesComplete :
    firstSourceLegal 14 = true ∧ secondSourceLegal 30 = true ∧ Ready .h readyState ∧ Ready .s readyState ∧
      Ready .d readyState :=
  ⟨by decide, by decide, ready_h, ready_s, ready_d⟩

theorem witness_LoopNestIsClosedForm :
    (Record.mk .d 14 30 .two .two 7 false).wf = true ∧ Ready .d readyState ∧ 1 < side readyState .d :=
  ⟨by decide, ready_d, by decide⟩

theorem witness_LoopOrderNotObservable : (iterations 2).reverse.Perm (iterations 2) := List.reverse_perm _

theorem witness_TileIndexBijection : 1 < dimOf 128 .s ∧ 15 < sideOf 128 .s * sideOf 128 .s := by decide

theorem witness_GroupRegistersInRange : (Record.mk .d 14 30 .two .two 7 false).wf = true ∧ 1 < 2 := by decide

theorem goes_on_s : ∃ t, exec (.fmop4aSSingle 0 0 16) readyState = .next t := next_of_goesOn (by decide +kernel)

theorem witness_FrameOfEveryInstruction : ∃ t, exec (.fmop4aSSingle 0 0 16) readyState = .next t := goes_on_s

theorem witness_TwiceAccumulatesTwice :
    (Instr.fmop4aSSingle 0 0 16).wf = true ∧ Ready .s readyState ∧ 3 < side readyState .s :=
  ⟨by decide, ready_s, by decide⟩

/-- A state whose tile 0 differs from `readyState`'s in element `(0, 1)`, and whose `Z2` differs too. -/
def otherState : State :=
  let t := tileState .s 0 [(0, [0, 0x3F800000])]
  { t with z := t.z.set 2 1 }

/-- Two states that differ in an element and in a register the hypotheses do not name. -/
theorem witness_ElementsIndependent :
    ∃ s s' t t' : State, s ≠ s' ∧ zElem s .s 2 0 ≠ zElem s' .s 2 0 ∧ (Instr.fmop4aSSingle 0 0 16).wf = true ∧
      s.params = s'.params ∧ s.fpcr = s'.fpcr ∧ 0 < side s .s ∧ tileElem s .s 0 0 0 = tileElem s' .s 0 0 0 ∧
      zElem s .s (groupRegister 0 1 (block s .s 0)) 0 = zElem s' .s (groupRegister 0 1 (block s .s 0)) 0 ∧
      zElem s .s (groupRegister 16 1 (block s .s 0)) 0 = zElem s' .s (groupRegister 16 1 (block s .s 0)) 0 ∧
      exec (.fmop4aSSingle 0 0 16) s = .next t ∧ exec (.fmop4aSSingle 0 0 16) s' = .next t' := by
  obtain ⟨t, ht⟩ := goes_on_s
  obtain ⟨t', ht'⟩ : ∃ t', exec (.fmop4aSSingle 0 0 16) otherState = .next t' := next_of_goesOn (by decide +kernel)
  exact ⟨readyState, otherState, t, t', by decide +kernel, by decide +kernel, by decide, rfl, rfl, by decide,
    by decide +kernel, by decide +kernel, by decide +kernel, ht, ht'⟩

theorem witness_TileWriteThenRead : 7 < ESize.d.tiles ∧ 0 < ESize.d.tiles ∧ 0 ≠ 7 := by decide

theorem witness_TilesOverlap : ∃ r < sideOf 128 .s, 4 = tileVector .s 0 r := ⟨1, by decide, by decide⟩

theorem witness_TilesPartitionArray : 15 < VecLen.vl128.bits / 8 := by decide

theorem witness_OtherTilesKept :
    (∃ t, exec (.fmop4aSSingle 0 0 16) readyState = .next t) ∧ 7 < ESize.d.tiles ∧ 1 < side readyState .d ∧
      tileVector .d 7 1 % ESize.s.tiles ≠ 0 :=
  ⟨goes_on_s, by decide, by decide, by decide⟩

/-- A state in form with a word placed at `pc`. -/
theorem witness_StepKeepsInv : Inv (atWord 0x80000000) ∧ ∃ t, step (atWord 0x80000000) = .next t :=
  ⟨⟨by decide +kernel, by decide +kernel, by decide +kernel⟩, next_of_goesOn (by decide +kernel)⟩

theorem witness_RunKeepsAllButTiles : ∃ t, Host.Core.run Sys2Proof.core 1 (atWord 0x80000000) = .next t := by
  obtain ⟨t, ht⟩ := witness_StepKeepsInv.2
  have h : Host.Core.run Sys2Proof.core 1 (atWord 0x80000000) =
      (match step (atWord 0x80000000) with
        | .next s => .next s
        | .fault r => .fault r
        | .refused r => .refused r) := rfl
  exact ⟨t, by rw [h, ht]⟩

theorem witness_RunStaysEnabled : ∃ t, Host.Core.run Sys2Proof.core (0 + 1) (atWord 0x80000000) = .next t :=
  witness_RunKeepsAllButTiles

/-- A subnormal, a normal and a zero are finite. -/
theorem witness_FiniteValuesFollowLayout :
    IsFinite (fpClassify .h 0x0001#16) ∧ IsFinite (fpClassify .s 0xFF7FFFFF#32) ∧ IsFinite (fpClassify .d 0#64) := by decide

theorem witness_ExactSumIsRealSum : IsFinite (fpClassify .s 0x7F7FFFFF#32) ∧ IsFinite (fpClassify .s 0x80000001#32) := by decide

/-- A quiet and a signalling NaN of each precision. -/
theorem witness_AnyNaNGivesDefaultNaN :
    (fpClassify .h 0x7C01#16).isNaN = true ∧ (fpClassify .s 0xFFC00000#32).isNaN = true ∧
      (fpClassify .d 0x7FF8000000000001#64).isNaN = true := by decide

/-- Vectors 5 and 7 (infinity times zero; opposite infinities), and the factors exchanged. -/
theorem witness_InvalidOperationsGiveDefaultNaN :
    (fpClassify .s 0x3F800000#32).isNaN = false ∧ (fpUnpack .s 0x7F800000#32 0).isInfinity = true ∧
      (fpUnpack .s 0x00000000#32 0).isZero = true ∧ (fpUnpack .s 0xFF800000#32 0).isInfinity = true ∧
      (0x7F800000#32).msb ≠ xor (0xFF800000#32).msb (0x3F800000#32).msb := by decide

/-- Vectors 9 (infinite addend), 10 (infinite product) and 12 (like-signed zeros). -/
theorem witness_InfinitiesAndLikeZeros :
    (invalidOp (fpUnpack .s 0xFF800000#32 0) (fpUnpack .s 0x3F800000#32 0) (fpUnpack .s 0x3F800000#32 0) = false ∧
      (fpUnpack .s 0xFF800000#32 0).isInfinity = true) ∧
    (invalidOp (fpUnpack .s 0x3F800000#32 0) (fpUnpack .s 0xFF800000#32 0) (fpUnpack .s 0x40000000#32 0) = false ∧
      (fpUnpack .s 0xFF800000#32 0).isInfinity = true) ∧
    (invalidOp (fpUnpack .s 0x80000000#32 0) (fpUnpack .s 0x80000000#32 0) (fpUnpack .s 0x40A00000#32 0) = false ∧
      (fpUnpack .s 0x80000000#32 0).isZero = true ∧
      (0x80000000#32).msb = xor (0x80000000#32).msb (0x40A00000#32).msb) := by decide

/-- Vectors 16 (exact cancellation) and 1 (a sum that is not zero). -/
theorem witness_NumericalCase :
    (exactSum .s (fpUnpack .s 0x3F800000#32 0) (fpUnpack .s 0xBF800000#32 0) (fpUnpack .s 0x3F800000#32 0) = 0 ∧
      (fpUnpack .s 0x3F800000#32 0).isZero = false ∧ IsFinite (fpUnpack .s 0x3F800000#32 0) ∧
      IsFinite (fpUnpack .s 0xBF800000#32 0)) ∧
    (exactSum .s (fpUnpack .s 0x40400000#32 0) (fpUnpack .s 0x3F800000#32 0) (fpUnpack .s 0x40000000#32 0) ≠ 0 ∧
      (fpUnpack .s 0x40400000#32 0).isZero = false ∧ IsFinite (fpUnpack .s 0x40400000#32 0) ∧
      IsFinite (fpUnpack .s 0x40000000#32 0)) := by decide +kernel

/-- Vector 43, a tie: `2048 + 1` in half precision, between 2048 and 2050. -/
theorem witness_NearestModeGivesNearest :
    IsFinite (fpUnpack .h 0x6800#16 0) ∧ IsFinite (fpUnpack .h 0x3C00#16 0) ∧ fpcrRMode 0 = .rn ∧ resultFlush .h 0 = false ∧
      IsFinite (fpClassify .h (fpMulAddReference .h 0x6800#16 0x3C00#16 0x3C00#16 0)) ∧ IsFinite (fpClassify .h 0x6801#16) := by
  decide +kernel

/-- Vectors 20, 23 and 24: each directed mode. -/
theorem witness_DirectedModesGiveBounds :
    fpcrRMode 0x400000 = .rp ∧ fpcrRMode 0x800000 = .rm ∧ fpcrRMode 0xC00000 = .rz ∧
      IsFinite (fpClassify .s (fpMulAddReference .s 0x3F800000#32 0x33800000#32 0x3F800000#32 0x400000)) ∧
      IsFinite (fpClassify .s (fpMulAddReference .s 0xBF800000#32 0xB3800000#32 0x3F800000#32 0x800000)) ∧
      IsFinite (fpClassify .s (fpMulAddReference .s 0xBF800000#32 0xB3800000#32 0x3F800000#32 0xC00000)) ∧
      IsFinite (fpUnpack .s 0xB3800000#32 0x800000) ∧ resultFlush .s 0xC00000 = false := by decide +kernel

/-- Vector 1: `3 + 1*2 = 5`. -/
theorem witness_RepresentableSumIsExact :
    IsNotSubnormal .s (fpClassify .s 0x40400000#32) ∧ IsNotSubnormal .s (fpClassify .s 0x3F800000#32) ∧
      IsNotSubnormal .s (fpClassify .s 0x40000000#32) ∧ IsNotSubnormal .s (fpClassify .s 0x40A00000#32) ∧
      (fpClassify .s 0x40A00000#32).isZero = false ∧
      exactSum .s (fpClassify .s 0x40400000#32) (fpClassify .s 0x3F800000#32) (fpClassify .s 0x40000000#32) =
        (fpClassify .s 0x40A00000#32).units * 2 ^ unitExp .s := by decide +kernel

/-- Vectors 13 and 15. -/
theorem witness_ZeroProductAndAddendGiveZero :
    (fpClassify .s 0x00000000#32).isZero = true ∧ (fpClassify .s 0x80000000#32).isZero = true ∧
      IsFinite (fpClassify .s 0x40A00000#32) := by decide

/-- Vector 26. -/
theorem witness_OverflowByMode :
    IsFinite (fpUnpack .s 0x7F7FFFFF#32 0) ∧
      2 ^ (expBias .s + 1 + 2 * unitExp .s) ≤ roundUnbounded .s (fpcrRMode 0) false
        (exactSum .s (fpUnpack .s 0#32 0) (fpUnpack .s 0x7F7FFFFF#32 0) (fpUnpack .s 0x40000000#32 0)).natAbs := by
  decide +kernel

/-- Vectors 35 (`AH = 0`), and the same with `AH = 1`. -/
theorem witness_TinyResultsFlushed :
    exactSum .s (fpUnpack .s 0#32 0x1000000) (fpUnpack .s 0x00800000#32 0x1000000) (fpUnpack .s 0x3F000000#32 0x1000000) ≠ 0 ∧
      resultFlush .s 0x1000000 = true ∧ resultFlush .s 0x1000002 = true ∧
      (exactSum .s (fpUnpack .s 0#32 0x1000000) (fpUnpack .s 0x00800000#32 0x1000000)
        (fpUnpack .s 0x3F000000#32 0x1000000)).natAbs < 2 ^ (fracBits .s + unitExp .s) ∧
      roundUnbounded .s .rn false (exactSum .s (fpUnpack .s 0#32 0x1000002) (fpUnpack .s 0x00800000#32 0x1000002)
        (fpUnpack .s 0x3F000000#32 0x1000002)).natAbs < 2 ^ (fracBits .s + unitExp .s) := by decide +kernel

/-- `DN` and the trap enables differ, the fields read do not. -/
theorem witness_OnlyListedFpcrFieldsMatter :
    (0x0#64).getLsbD 23 = (0x2009F00#64).getLsbD 23 ∧ (0x0#64).getLsbD 22 = (0x2009F00#64).getLsbD 22 ∧
      (0x0#64).getLsbD 1 = (0x2009F00#64).getLsbD 1 ∧ (0x0#64).getLsbD 19 = (0x2009F00#64).getLsbD 19 ∧
      (0x0#64).getLsbD 24 = (0x2009F00#64).getLsbD 24 ∧ (0x0#64).getLsbD 0 = (0x2009F00#64).getLsbD 0 := by decide

theorem witness_FpNegMeaningAndAbsence :
    fpcrAH 2 = true ∧ (fpClassify .s 0x7FC00000#32).isNaN = true ∧ fpcrAH 0 = false ∧ 31 < ESize.s.bits := by decide

theorem witness_AssembleOfDisassemble : (Instr.fmop4aHMultiple 1 14 30).wf = true := by decide

theorem witness_AcceptedLineRoundTrips :
    ∃ w, assemble (AsmLine.mk 1 .h (.pair 14 .h 15 .h) (.reg 30 .h)) = .ok w := ⟨_, rfl⟩

/-! ### Programs (R194) -/

/-- A program of two words whose addresses wrap: at `2^64 - 4` and at 0. -/
def wrapBase : Addr := 0xFFFFFFFFFFFFFFFC#64
def wrapProgram : List Word := [0x80000000#32, 0x81000009#32]

/-- R194 at the top of the address space: the second word is fetched at 0, and past it there is none. -/
theorem test_program_wraps :
    (fetchWord (startProgram readyState wrapBase wrapProgram)).toOption = some 0x80000000#32 ∧
      (fetchWord ((startProgram readyState wrapBase wrapProgram).withPc 0)).toOption = some 0x81000009#32 ∧
      (fetchWord ((startProgram readyState wrapBase wrapProgram).withPc 4)).toOption = none := by decide +kernel

/-- R194: a fault or a refusal ends a run as not final. The second word is outside the twelve classes. -/
theorem test_program_not_final :
    runProgram wrapBase 2 2 (startProgram readyState wrapBase [0x80000000#32, 0x80000010#32]) =
      .refused .notThisInstruction := by decide +kernel

theorem witness_ProgramFetchesItsWords :
    wrapBase.toNat % 4 = 0 ∧ 4 * wrapProgram.length < 2 ^ 64 ∧ wrapProgram[1]? = some 0x81000009#32 ∧
      ((startProgram readyState wrapBase wrapProgram).withPc 0).pc = wrapBase + BitVec.ofNat 64 (4 * 1) ∧
      Final wrapBase wrapProgram.length ((startProgram readyState wrapBase wrapProgram).withPc 4) := by decide +kernel

theorem witness_ProgramRunsItsWordsInOrder :
    wrapBase.toNat % 4 = 0 ∧ 4 * wrapProgram.length < 2 ^ 64 ∧ Enabled readyState ∧
      ∀ w ∈ wrapProgram, ∃ i, decodeWord w = some i ∧ featuresPresent i.record.esize readyState.params = true := by
  refine ⟨by decide, by decide, by decide, fun w hw => ?_⟩
  obtain rfl | rfl : w = 0x80000000#32 ∨ w = 0x81000009#32 := by simpa [wrapProgram] using hw
  · exact ⟨.fmop4aSSingle 0 0 16, by decide, by decide⟩
  · exact ⟨.fmop4aHSingle 1 0 16, by decide, by decide⟩

end Sys2Proof.Tests
end

section
/-! PROOFS. The family of 10_state.md: the ZA storage (R23, R24, R33), the frame of an instruction and of a run (R35), the
invariant of the state's form, and the state after reset (R34). -/

namespace Sys2Proof.Machine

/-! ### Bitstrings as sequences of elements -/

/-- Two bitstrings made of `k` elements are equal when their elements are (R13). -/
theorem eq_of_elem_eq {w : Nat} (x y : BitVec w) (k size : Nat) (hw : w = k * size)
    (h : ∀ i < k, elem x i size = elem y i size) : x = y := by
  apply BitVec.eq_of_getLsbD_eq
  intro b hb
  have hlt : b < size * k := by rw [Nat.mul_comm, ← hw]; exact hb
  have hsize : 0 < size := Nat.pos_of_mul_pos_right (Nat.zero_lt_of_lt hlt)
  have hbit := congrArg (fun e => e.getLsbD (b % size)) (h (b / size) (Nat.div_lt_of_lt_mul hlt))
  simpa only [getLsbD_elem, Nat.mod_lt b hsize, decide_true, Bool.true_and, Nat.div_add_mod'] using hbit

/-- A bitstring is below `2^n` as a number exactly when its bits from `n` on are zero. -/
theorem toNat_lt_two_pow_iff {w : Nat} (x : BitVec w) (n : Nat) :
    x.toNat < 2 ^ n ↔ ∀ b, n ≤ b → x.getLsbD b = false := by
  constructor
  · intro h b hb
    exact Nat.testBit_lt_two_pow (Nat.lt_of_lt_of_le h (Nat.pow_le_pow_right (by decide) hb))
  · exact fun h => Nat.lt_pow_two_of_testBit _ h

/-! ### Tiles and array vectors -/

/-- Every array vector after a tile is written: a row of the tile is that row of the value, any other vector is as it was
(R24). -/
theorem zaVector_zaTileWrite (s : State) (t : Nat) (es : ESize) (v : BitVec (tileSize (currentVL s) es)) (i : Nat) :
    zaVector (s.withZa (zaTileWrite s t es v)) i =
      if i < currentVL s / 8 ∧ i % es.tiles = t then elem v (i / es.tiles) (currentVL s) else zaVector s i := by
  change (if h : i < maxVectors then (zaTileWrite s t es v)[i] else 0).setWidth (currentVL s) = _
  by_cases hi : i < maxVectors
  · rw [dif_pos hi]
    refine BitVec.eq_of_getLsbD_eq fun b hb => ?_
    rw [BitVec.getLsbD_setWidth, decide_eq_true hb, Bool.true_and, getLsbD_zaTileWrite s t es v i hi]
    by_cases hin : i < currentVL s / 8 ∧ i % es.tiles = t
    · rw [if_pos hin, if_pos ⟨hin.1, hin.2, hb⟩]
    · rw [if_neg hin, if_neg (by tauto), zaVector, dif_pos hi, BitVec.getLsbD_setWidth, decide_eq_true hb,
        Bool.true_and]
  · have hmax : currentVL s / 8 ≤ maxVectors := vectors_le_max s.params.vl
    rw [dif_neg hi, if_neg (by omega), zaVector, dif_neg hi]

/-- A tile is determined by its rows (R15, R24). -/
theorem zaTileRead_eq_of_rows (s : State) (t : Nat) (es : ESize) (v : BitVec (tileSize (currentVL s) es))
    (h : ∀ r < sideOf (currentVL s) es, zaVector s (tileVector es t r) = elem v r (currentVL s)) :
    zaTileRead s t es = v :=
  eq_of_elem_eq _ _ _ _ (tileSize_eq s.params.vl es) fun r hr => (row_zaTileRead s t es r hr).trans (h r hr)

/-- Reading the tile just written gives the value (R24). -/
theorem zaTileRead_zaTileWrite_same (s : State) (t : Nat) (es : ESize) (v : BitVec (tileSize (currentVL s) es))
    (ht : t < es.tiles) : zaTileRead (s.withZa (zaTileWrite s t es v)) t es = v := by
  refine zaTileRead_eq_of_rows (s.withZa (zaTileWrite s t es v)) t es v fun r hr => ?_
  have hrow : tileVector es t r < currentVL s / 8 ∧ tileVector es t r % es.tiles = t :=
    ⟨tileVector_lt s.params.vl es t r ht hr, tileVector_mod es t r ht⟩
  rw [zaVector_zaTileWrite, if_pos hrow, tileVector_div es t r ht]
  rfl

/-- Writing a tile leaves the other tiles of the element size as they were (R24). -/
theorem zaTileRead_zaTileWrite_ne (s : State) (t t' : Nat) (es : ESize) (v : BitVec (tileSize (currentVL s) es))
    (ht' : t' < es.tiles) (hne : t' ≠ t) :
    zaTileRead (s.withZa (zaTileWrite s t es v)) t' es = zaTileRead s t' es := by
  refine zaTileRead_eq_of_rows (s.withZa (zaTileWrite s t es v)) t' es (zaTileRead s t' es) fun r hr => ?_
  have hrow : ¬ (tileVector es t' r < currentVL s / 8 ∧ tileVector es t' r % es.tiles = t) := by
    rw [tileVector_mod es t' r ht']
    exact fun h => hne h.2
  rw [zaVector_zaTileWrite, if_neg hrow]
  exact (row_zaTileRead s t' es r hr).symm

/-- An arithmetic progression of `2*k` terms is its even terms and its odd terms. -/
theorem exists_progression_iff_halves (t n k i : Nat) :
    (∃ r < 2 * k, i = t + r * n) ↔ (∃ r < k, i = t + r * (2 * n)) ∨ ∃ r < k, i = t + n + r * (2 * n) := by
  constructor
  · rintro ⟨r, hr, rfl⟩
    obtain ⟨q, rfl | rfl⟩ := Nat.even_or_odd' r
    · exact .inl ⟨q, by omega, by ring⟩
    · exact .inr ⟨q, by omega, by ring⟩
  · rintro (⟨r, hr, rfl⟩ | ⟨r, hr, rfl⟩)
    · exact ⟨2 * r, by omega, by ring⟩
    · exact ⟨2 * r + 1, by omega, by ring⟩

/-! ### The frame of an instruction and of a step -/

/-- The Operation changes no bit of ZA outside its tile (R35). -/
theorem sameOutsideTile_operation (s : State) (rec : Record) (pc : Addr) :
    SameOutsideTile rec.esize rec.da s ((operation s rec).withPc pc) := by
  intro i b hout
  have h := getLsbD_zaTileWrite s rec.da rec.esize (outerProducts s rec (zaTileRead s rec.da rec.esize) 0) i i.isLt b
  rw [if_neg hout] at h
  exact h

/-- What an instruction that completes leaves as it was, and the next `pc` (R35, R29). -/
theorem frame_of_exec_next {i : Instr} {s t : State} (h : exec i s = .next t) :
    SameElsewhere s t ∧ SameOutsideTile i.record.esize i.record.da s t ∧ t.pc = s.pc + 4 := by
  rw [exec_eq] at h
  obtain ⟨-, -, rfl⟩ := fmop4a_next h
  exact ⟨⟨rfl, rfl, rfl, rfl, rfl, rfl⟩, sameOutsideTile_operation s i.record _, rfl⟩

/-- An instruction leaves every array vector that is no row of its tile as it was (R24, R35). -/
theorem tileElem_of_exec_next {i : Instr} {s t : State} (h : exec i s = .next t) (es : ESize) (x r c : Nat)
    (hrow : tileVector es x r % i.record.esize.tiles ≠ i.record.da) : tileElem t es x r c = tileElem s es x r c := by
  rw [exec_eq] at h
  obtain ⟨-, -, rfl⟩ := fmop4a_next h
  have hvec := zaVector_zaTileWrite s i.record.da i.record.esize
    (outerProducts s i.record (zaTileRead s i.record.da i.record.esize) 0) (tileVector es x r)
  rw [if_neg fun hin => hrow hin.2] at hvec
  exact congrArg (fun row => elem row c es.bits) hvec

/-- A step that goes on has executed an instruction. -/
theorem exec_of_step_next {s t : State} (h : step s = .next t) : ∃ i, exec i s = .next t := by
  rcases step_cases s with ⟨e, -, hs⟩ | ⟨w, -, -, hs⟩ | ⟨w, i, -, -, hs⟩
  · rw [hs] at h; cases h
  · rw [hs] at h; cases h
  · exact ⟨i, by rw [exec_eq, ← hs, h]⟩

/-! ### The form of the state -/

/-- The next `pc` keeps the alignment, also where it wraps (R29). -/
theorem next_pc_aligned (pc : Addr) (h : pc.toNat % 4 = 0) : (pc + 4).toNat % 4 = 0 := by
  rw [BitVec.toNat_add, show (4 : Addr).toNat = 4 from rfl]
  omega

/-- What keeps the registers and every bit outside a tile stores nothing outside the spec's bits (R22, R23). -/
theorem unusedBitsZero_of_frame {s t : State} {es : ESize} {da : Nat} (hsame : SameElsewhere s t)
    (hout : SameOutsideTile es da s t) (h : UnusedBitsZero s) : UnusedBitsZero t := by
  obtain ⟨hz, -, -, -, -, hparams⟩ := hsame
  obtain ⟨hzBits, hzaBits, hzaRows⟩ := h
  have hvl : currentVL t = currentVL s := by rw [currentVL, hparams, currentVL]
  rw [UnusedBitsZero, hvl, hz]
  refine ⟨hzBits, fun i => ?_, fun i hi => ?_⟩
  · rw [toNat_lt_two_pow_iff]
    intro b hb
    rw [hout i b (by omega)]
    exact (toNat_lt_two_pow_iff _ _).1 (hzaBits i) b hb
  · rw [← hzaRows i hi]
    exact BitVec.eq_of_getLsbD_eq fun b _ => hout i b (by omega)

/-- A step keeps the form of the state. -/
theorem inv_of_step_next {s t : State} (h : step s = .next t) (hinv : Inv s) : Inv t := by
  obtain ⟨i, hi⟩ := exec_of_step_next h
  obtain ⟨hsame, hout, hpc⟩ := frame_of_exec_next hi
  obtain ⟨htext, halign, hunused⟩ := hinv
  refine ⟨?_, hpc ▸ next_pc_aligned s.pc halign, unusedBitsZero_of_frame hsame hout hunused⟩
  obtain ⟨-, -, -, -, htextSame, -⟩ := hsame
  rwa [htextSame]

/-! ### Runs -/

/-- A run of one step more is a step and the run from there. -/
theorem run_succ_next {M : Host.Core} {n : Nat} {s t : M.State} (h : M.run (n + 1) s = .next t) :
    ∃ u, M.step s = .next u ∧ M.run n u = .next t := by
  rw [Host.Core.run] at h
  split at h
  · next u hs => exact ⟨u, hs, h⟩
  · cases h
  · cases h

/-- What two runs in sequence leave as it was (R35). -/
theorem sameElsewhere_trans {s u t : State} (hsu : SameElsewhere s u) (hut : SameElsewhere u t) : SameElsewhere s t := by
  obtain ⟨hz, hfpcr, hsm, hza, htext, hparams⟩ := hsu
  rwa [SameElsewhere, hz, hfpcr, hsm, hza, htext, hparams] at hut

/-- What a run leaves as it was, and how far `pc` has moved. -/
theorem frame_of_run_next {n : Nat} {s t : State} (h : Host.Core.run core n s = .next t) :
    SameElsewhere s t ∧ t.pc = s.pc + BitVec.ofNat 64 (4 * n) := by
  induction n generalizing s with
  | zero =>
    obtain rfl : s = t := by injection h
    exact ⟨⟨rfl, rfl, rfl, rfl, rfl, rfl⟩, by simp⟩
  | succ n ih =>
    obtain ⟨u, hstep, hrun⟩ := run_succ_next h
    obtain ⟨i, hexec⟩ := exec_of_step_next hstep
    obtain ⟨hsu, -, hpcU⟩ := frame_of_exec_next hexec
    obtain ⟨hut, hpcT⟩ := ih hrun
    refine ⟨sameElsewhere_trans hsu hut, ?_⟩
    rw [hpcT, hpcU, BitVec.add_assoc, Nat.mul_succ, Nat.add_comm, BitVec.ofNat_add]
    rfl

/-! ### The state after reset -/

@[simp] theorem reset_z (i : Nat) (h : i < 32) : State.reset.z[i] = 0 := Vector.getElem_replicate h

@[simp] theorem reset_za (i : Nat) (h : i < maxVectors) : State.reset.za[i] = 0 := Vector.getElem_replicate h

/-- A reason of the enable check is the trap reported (R115, R172). -/
theorem fmop4a_of_enableCheck {rec : Record} {s : State} {why : TrapReason}
    (hf : featuresPresent rec.esize s.params = true) (he : enableCheck s = some why) :
    fmop4a rec s = .fault (.smeAccessTrap why) := by
  simp [fmop4a, raise, hf, he]

/-- Every class's features are present after reset (log 2). -/
theorem featuresPresent_reset (es : ESize) : featuresPresent es State.reset.params = true := by
  cases es <;> rfl

end Sys2Proof.Machine

/-! ### The obligations -/

namespace Sys2Proof.Proofs.MachineState

open Sys2Proof.Machine

/-- Settles O33: what a step writes is a tile's bits and the next `pc`. -/
theorem stepKeepsInv : Obligations.StepKeepsInv := fun _ _ hinv hstep => inv_of_step_next hstep hinv

/-- Settles O26: every instruction is the shared Operation, which writes one tile, and the next `pc`. -/
theorem frameOfEveryInstruction : Obligations.FrameOfEveryInstruction := fun _ _ _ h => frame_of_exec_next h

/-- Settles O29, row by row of the tile. -/
theorem tileWriteThenRead : Obligations.TileWriteThenRead := fun s es t v ht =>
  ⟨zaTileRead_zaTileWrite_same s t es v ht, fun t' ht' hne => zaTileRead_zaTileWrite_ne s t t' es v ht' hne⟩

/-- Settles O30: the rows of the larger tile are alternately those of the two smaller ones. -/
theorem tilesOverlap : Obligations.TilesOverlap := by
  intro v i
  have hs : sideOf v.bits .s = 2 * sideOf v.bits .d := by cases v <;> rfl
  have hh : sideOf v.bits .h = 2 * sideOf v.bits .s := by cases v <;> rfl
  refine ⟨fun t _ => ?_, fun t _ => ?_⟩
  · rw [hs]
    exact exists_progression_iff_halves t ESize.s.tiles (sideOf v.bits .d) i
  · rw [hh]
    exact exists_progression_iff_halves t ESize.h.tiles (sideOf v.bits .s) i

/-- Settles O31: vector `i` is row `i DIV tiles` of tile `i MOD tiles`. -/
theorem tilesPartitionArray : Obligations.TilesPartitionArray := by
  intro v es i hi
  rw [← side_mul_tiles v es] at hi
  refine ⟨(i % es.tiles, i / es.tiles), ⟨⟨Nat.mod_lt _ (tiles_pos es), Nat.div_lt_of_lt_mul ?_⟩, ?_⟩, ?_⟩
  · rwa [Nat.mul_comm]
  · exact Nat.mod_add_div' i es.tiles
  · rintro ⟨t, r⟩ ⟨⟨ht, -⟩, rfl⟩
    rw [tileVector_mod es t r ht, tileVector_div es t r ht]

/-- Settles O32, through the array vector that holds the element. -/
theorem otherTilesKept : Obligations.OtherTilesKept := fun _ _ _ h es x r c _ _ _ hrow =>
  tileElem_of_exec_next h es x r c hrow

/-- Settles O36, by induction on the number of steps. -/
theorem runKeepsAllButTiles : Obligations.RunKeepsAllButTiles := fun _ _ _ h => frame_of_run_next h

/-- Settles O34: the text is empty and every register and array vector is zero. -/
theorem resetMeetsInv : Obligations.ResetMeetsInv := by
  refine ⟨by decide, by decide, fun i => ?_, fun i => ?_, fun i _ => reset_za i i.isLt⟩
  · simp [reset_z]
  · simp [reset_za]

/-- Settles O35: the enable check finds SME permitted and `PSTATE.SM` zero. -/
theorem resetLeavesStreamingOff : Obligations.ResetLeavesStreamingOff := by
  refine ⟨rfl, rfl, rfl, rfl, fun i => reset_z i i.isLt, fun i => reset_za i i.isLt, rfl, fun i => ?_⟩
  have htrap : enableCheck State.reset = some .notStreaming := rfl
  rw [exec_eq]
  exact fmop4a_of_enableCheck (featuresPresent_reset _) htrap

end Sys2Proof.Proofs.MachineState
end

section
/-! PROOFS. The family of 20_memory.md: what a fetch answers (R51, R52), the step on it (R170), and the placing of one word
at `pc` (R57, R194). -/

namespace Sys2Proof.Machine

/-! ### The step on what the fetch answers -/

/-- A refused fetch refuses the step. -/
theorem step_of_fetchWord_error {s : State} {e : Refusal} (h : fetchWord s = .error e) : step s = .refused e := by
  simp only [step, h]

/-- A fetched instruction is the one executed (R79, R170). -/
theorem step_of_fetchWord_ok {s : State} {w : Word} {i : Instr} (h : fetchWord s = .ok w)
    (hi : decodeWord w = some i) : step s = exec i s := by
  simp only [step, h, hi]

/-! ### Refused fetches -/

/-- No word is fetched at a misaligned `pc` (R52, D12). -/
theorem fetchWord_misaligned {s : State} (h : s.pc.toNat % 4 ≠ 0) : fetchWord s = .error .pcMisaligned :=
  if_pos h

/-- One byte missing at an aligned `pc` is no program word (log 15). -/
theorem fetchWord_missing_byte {s : State} (hpc : s.pc.toNat % 4 = 0) {k : Nat} (hk : k < 4)
    (hnone : memRead s.text (s.pc.toNat + k) = none) : fetchWord s = .error .noProgramWord := by
  rw [fetchWord, if_neg (not_not.2 hpc)]
  split
  · next h0 h1 h2 h3 =>
    obtain rfl | rfl | rfl | rfl : k = 0 ∨ k = 1 ∨ k = 2 ∨ k = 3 := by omega
    all_goals simp [h0, h1, h2, h3] at hnone
  · rfl

/-! ### Placing a word at `pc` -/

/-- Placing all 32 bits of a word at `pc` places that word (log 22). -/
theorem withFetchWord_word (s : State) (w : Word) :
    s.withFetchWord 32 w.toNat = s.withText (placeWord s.text s.pc w) := by
  rw [State.withFetchWord, Nat.mod_eq_of_lt w.isLt, BitVec.ofNat_toNat, BitVec.setWidth_eq]

/-- The word placed at an aligned `pc` stands there, lowest byte first (R51, D12). -/
theorem wordAtPc_withFetchWord (s : State) (w : Word) (hwf : s.text.wf) (hpc : s.pc.toNat % 4 = 0) :
    WordAtPc (s.withFetchWord 32 w.toNat) w := by
  rw [withFetchWord_word]
  refine ⟨hpc, fun k hk => ?_⟩
  rw [State.withText_text, State.withText_pc, memRead_placeWord _ _ _ _ hwf hpc, if_pos (by omega),
    Nat.add_sub_cancel_left]

end Sys2Proof.Machine

/-! ### The obligations -/

namespace Sys2Proof.Proofs.ProgramText

open Sys2Proof.Machine

/-- Settles O11: the placed bytes are the word fetched, and placing writes no other byte. -/
theorem placedWordRunsNext : Obligations.PlacedWordRunsNext := by
  intro s w i hwf hpc hi
  obtain ⟨hpc', hbytes⟩ := wordAtPc_withFetchWord s w hwf hpc
  refine ⟨step_of_fetchWord_ok (fetchWord_of_bytes _ w hpc' hbytes) hi, ?_, fun a ha => ?_⟩
  · rw [withFetchWord_word]
    exact placeWord_wf s.text s.pc w hwf
  · rw [withFetchWord_word, State.withText_text, memRead_placeWord _ _ _ _ hwf hpc, if_neg (by omega)]

/-- Settles O10: each refusal of the fetch is the step's. -/
theorem fetchRefusals : Obligations.FetchRefusals := by
  refine ⟨fun s hpc => step_of_fetchWord_error (fetchWord_misaligned hpc), fun s hpc hmissing => ?_⟩
  obtain ⟨k, hk, hnone⟩ := hmissing
  exact step_of_fetchWord_error (fetchWord_missing_byte hpc hk hnone)

end Sys2Proof.Proofs.ProgramText
end

section
/-! PROOFS. The family of 30_encoding.md: what each field of a word is (R72 to R75), when a word belongs to a class (R74),
that decoder and encoder are inverse to each other (R79, R86), the feature test (R78), and the assembler and disassembler
(R81 to R83, R86). -/

namespace Sys2Proof

/-! ### The encoding table -/

/-- The number of bits of `ZAda` (R71). -/
def ESize.tileBits : ESize → Nat
  | .h => 1
  | .s => 2
  | .d => 3

theorem ESize.tileBits_le (es : ESize) : es.tileBits ≤ 3 := by cases es <;> decide

/-- Every value of `ZAda` is a tile number, and there is no other (R71, R76). -/
theorem ESize.tiles_eq_two_pow (es : ESize) : es.tiles = 2 ^ es.tileBits := by cases es <;> rfl

/-- The bits of a word that `Zm`, `Zn` and `ZAda` occupy (R72). -/
def operandBits (es : ESize) : Word :=
  ((BitVec.allOnes 3).setWidth 32 <<< 17) ||| ((BitVec.allOnes 3).setWidth 32 <<< 6) |||
    (BitVec.allOnes es.tileBits).setWidth 32

/-- A class fixes every bit but those of its operands (R74). -/
theorem mask_eq_not_operandBits : ∀ c ∈ encodingTable, c.mask = ~~~operandBits c.esize := by decide

/-- The match of a class lies within its mask (R74). -/
theorem matchBits_and_mask : ∀ c ∈ encodingTable, c.matchBits &&& c.mask = c.matchBits := by decide

/-- Two classes fix some bit to different values (R74). -/
theorem eq_of_matchBits_agree :
    ∀ c ∈ encodingTable, ∀ d ∈ encodingTable, c.matchBits &&& d.mask = d.matchBits &&& c.mask → c = d := by decide

/-- Every class fixes `instr[4]`, the bit `S`, to 0 (R72). -/
theorem bit4_fixed_zero :
    ∀ c ∈ encodingTable, c.mask.getLsbD 4 = true ∧ c.matchBits.getLsbD 4 = false := by decide

/-- The table has a class for every element size and shapes of the two sources (R74). -/
theorem exists_class (es : ESize) (nreg mreg : NumRegs) :
    ∃ c ∈ encodingTable, c.esize = es ∧ c.nreg = nreg ∧ c.mreg = mreg := by
  cases es <;> cases nreg <;> cases mreg <;> decide

theorem EncodingClass.covers_iff (c : EncodingClass) (w : Word) : c.covers w = true ↔ w &&& c.mask = c.matchBits :=
  beq_iff_eq

/-- At most one class covers a word: its bits under both masks would be those of both matches (R74). -/
theorem eq_of_covers {c d : EncodingClass} {w : Word} (hc : c ∈ encodingTable) (hd : d ∈ encodingTable)
    (hcw : c.covers w = true) (hdw : d.covers w = true) : c = d := by
  rw [EncodingClass.covers_iff] at hcw hdw
  refine eq_of_matchBits_agree c hc d hd ?_
  rw [← hcw, ← hdw, BitVec.and_assoc, BitVec.and_assoc, BitVec.and_comm c.mask]

theorem bit4_of_covers {c : EncodingClass} {w : Word} (hc : c ∈ encodingTable) (hcw : c.covers w = true) :
    w.getLsbD 4 = false := by
  obtain ⟨hmask, hmatch⟩ := bit4_fixed_zero c hc
  rwa [← (c.covers_iff w).1 hcw, BitVec.getLsbD_and, hmask, Bool.and_true] at hmatch

/-! ### The decoder as a class match -/

/-- The order of the table does not matter to the decoder (R79). -/
theorem decodeWord_eq_some_iff (w : Word) (i : Instr) :
    decodeWord w = some i ↔ ∃ c ∈ encodingTable, c.covers w = true ∧ c.instr w = i := by
  have covers_of_find {c : EncodingClass} (hfind : encodingTable.find? (fun d => d.covers w) = some c) :
      c.covers w = true := List.find?_some (p := fun d : EncodingClass => d.covers w) hfind
  rw [decodeWord, Option.map_eq_some_iff]
  constructor
  · rintro ⟨c, hfind, hi⟩
    exact ⟨c, List.mem_of_find?_eq_some hfind, covers_of_find hfind, hi⟩
  · rintro ⟨c, hc, hcw, hi⟩
    cases hfind : encodingTable.find? (fun d => d.covers w) with
    | none => exact absurd hcw (List.find?_eq_none.1 hfind c hc)
    | some d =>
      obtain rfl := eq_of_covers (List.mem_of_find?_eq_some hfind) hc (covers_of_find hfind) hcw
      exact ⟨d, rfl, hi⟩

theorem decodeWord_eq_none_iff (w : Word) :
    decodeWord w = none ↔ ∀ c ∈ encodingTable, w &&& c.mask ≠ c.matchBits := by
  rw [decodeWord, Option.map_eq_none_iff, List.find?_eq_none]
  simp only [EncodingClass.covers_iff, ne_eq]

/-! ### Fields cut out of a word and put together to one -/

/-- A field cut out and put back at its place: the word's bits there. -/
theorem setWidth_extractLsb'_shiftLeft (w : Word) (p k : Nat) :
    (w.extractLsb' p k).setWidth 32 <<< p = w &&& ((BitVec.allOnes k).setWidth 32 <<< p) := by
  refine BitVec.eq_of_getLsbD_eq fun b hb => ?_
  by_cases hp : b < p
  · simp [hp]
  · simp [hp, hb, Bool.and_comm, show p + (b - p) = b by omega]

/-- The operands' fields, each put back at its place, are the word's operand bits (R72). -/
theorem fields_eq_and_operandBits (w : Word) (es : ESize) :
    ((fieldZm w).setWidth 32 <<< 17) ||| ((fieldZn w).setWidth 32 <<< 6) ||| (fieldZAda w es.tileBits).setWidth 32 =
      w &&& operandBits es := by
  have hda := setWidth_extractLsb'_shiftLeft w 0 es.tileBits
  rw [BitVec.shiftLeft_zero, BitVec.shiftLeft_zero] at hda
  rw [operandBits, BitVec.and_or_distrib_left, BitVec.and_or_distrib_left, fieldZm, fieldZn, fieldZAda,
    setWidth_extractLsb'_shiftLeft, setWidth_extractLsb'_shiftLeft, hda]

/-- A value put at a place is read back there. -/
theorem extractLsb'_shiftLeft_same {k : Nat} (x : BitVec k) (p : Nat) (h : p + k ≤ 32) :
    (x.setWidth 32 <<< p : Word).extractLsb' p k = x := by
  refine BitVec.eq_of_getLsbD_eq fun b hb => ?_
  simp [hb, show p + b < 32 by omega]

/-- Zeros are read where no bit of the value lies. -/
theorem extractLsb'_shiftLeft_disjoint {k : Nat} (x : BitVec k) (p q j : Nat) (h : q + j ≤ p ∨ p + k ≤ q) :
    (x.setWidth 32 <<< p : Word).extractLsb' q j = 0#j := by
  refine BitVec.eq_of_getLsbD_eq fun b hb => ?_
  rcases h with h | h
  · simp [show q + b < p by omega]
  · simp [BitVec.getLsbD_of_ge x (q + b - p) (by omega)]

/-- Where the match has zeros, an assembled word reads as its three operand fields (R86). -/
theorem extractLsb'_assembleFields (matchBits : Word) (n m : BitVec 5) {k : Nat} (da : BitVec k) (q j : Nat)
    (hmatch : matchBits.extractLsb' q j = 0#j) :
    (assembleFields matchBits n m da).extractLsb' q j =
      ((m.extractLsb' 1 3).setWidth 32 <<< 17 : Word).extractLsb' q j |||
        ((n.extractLsb' 1 3).setWidth 32 <<< 6 : Word).extractLsb' q j |||
        (da.setWidth 32 <<< 0 : Word).extractLsb' q j := by
  rw [assembleFields, BitVec.extractLsb'_or, BitVec.extractLsb'_or, BitVec.extractLsb'_or, hmatch, BitVec.zero_or,
    BitVec.shiftLeft_zero]

section
variable {c : EncodingClass} (hc : c ∈ encodingTable) (n m : BitVec 5) (da : BitVec c.esize.tileBits)
include hc

theorem fieldZm_assembleFields : fieldZm (assembleFields c.matchBits n m da) = m.extractLsb' 1 3 := by
  have hmatch : ∀ c ∈ encodingTable, c.matchBits.extractLsb' 17 3 = 0 := by decide
  have hda := c.esize.tileBits_le
  rw [fieldZm, extractLsb'_assembleFields _ _ _ _ _ _ (hmatch c hc), extractLsb'_shiftLeft_same _ 17 (by decide),
    extractLsb'_shiftLeft_disjoint _ 6 _ _ (by decide), extractLsb'_shiftLeft_disjoint _ 0 _ _ (by omega),
    BitVec.or_zero, BitVec.or_zero]

theorem fieldZn_assembleFields : fieldZn (assembleFields c.matchBits n m da) = n.extractLsb' 1 3 := by
  have hmatch : ∀ c ∈ encodingTable, c.matchBits.extractLsb' 6 3 = 0 := by decide
  have hda := c.esize.tileBits_le
  rw [fieldZn, extractLsb'_assembleFields _ _ _ _ _ _ (hmatch c hc), extractLsb'_shiftLeft_same _ 6 (by decide),
    extractLsb'_shiftLeft_disjoint _ 17 _ _ (by decide), extractLsb'_shiftLeft_disjoint _ 0 _ _ (by omega),
    BitVec.zero_or, BitVec.or_zero]

theorem fieldZAda_assembleFields : fieldZAda (assembleFields c.matchBits n m da) c.esize.tileBits = da := by
  have hmatch : ∀ c ∈ encodingTable, c.matchBits.extractLsb' 0 c.esize.tileBits = 0 := by decide
  have hda := c.esize.tileBits_le
  rw [fieldZAda, extractLsb'_assembleFields _ _ _ _ _ _ (hmatch c hc), extractLsb'_shiftLeft_same _ 0 (by omega),
    extractLsb'_shiftLeft_disjoint _ 17 _ _ (by omega), extractLsb'_shiftLeft_disjoint _ 6 _ _ (by omega),
    BitVec.zero_or, BitVec.zero_or]

end

/-! ### Register numbers and their fields (R75, R82) -/

theorem extractLsb'_firstSourceNumber : ∀ zn, (firstSourceNumber zn).extractLsb' 1 3 = zn := by decide

theorem extractLsb'_secondSourceNumber : ∀ zm, (secondSourceNumber zm).extractLsb' 1 3 = zm := by decide

theorem firstSourceLegal_iff : ∀ n, firstSourceLegal n = true ↔ firstSourceNumber (n.extractLsb' 1 3) = n := by decide

theorem secondSourceLegal_iff : ∀ m, secondSourceLegal m = true ↔ secondSourceNumber (m.extractLsb' 1 3) = m := by
  decide

theorem firstSourceLegal_firstSourceNumber (zn : BitVec 3) : firstSourceLegal (firstSourceNumber zn) = true :=
  (firstSourceLegal_iff _).2 (congrArg firstSourceNumber (extractLsb'_firstSourceNumber zn))

theorem secondSourceLegal_secondSourceNumber (zm : BitVec 3) : secondSourceLegal (secondSourceNumber zm) = true :=
  (secondSourceLegal_iff _).2 (congrArg secondSourceNumber (extractLsb'_secondSourceNumber zm))

/-- The word made of numbers as field values is the one made of the operands they stand for (R75, R82). -/
theorem matchBits_or_fields (matchBits : Word) (k : Nat) {zm zn zada : Nat} (hzm : zm < 8) (hzn : zn < 8)
    (hzada : zada < 2 ^ k) (hk : k ≤ 3) :
    matchBits ||| (BitVec.ofNat 32 zm <<< 17) ||| (BitVec.ofNat 32 zn <<< 6) ||| BitVec.ofNat 32 zada =
      assembleFields matchBits (BitVec.ofNat 5 (2 * zn)) (BitVec.ofNat 5 (16 + 2 * zm)) (BitVec.ofNat k zada) := by
  have hn : ∀ zn < 8, ((BitVec.ofNat 5 (2 * zn)).extractLsb' 1 3).setWidth 32 = BitVec.ofNat 32 zn := by decide
  have hm : ∀ zm < 8, ((BitVec.ofNat 5 (16 + 2 * zm)).extractLsb' 1 3).setWidth 32 = BitVec.ofNat 32 zm := by decide
  rw [assembleFields, hn zn hzn, hm zm hzm, BitVec.setWidth_ofNat_of_le_of_lt (by omega) hzada]

/-! ### The words of a class -/

/-- The word the class's match makes with the operand fields of `w` (R86). -/
def EncodingClass.withFieldsOf (c : EncodingClass) (w : Word) : Word :=
  assembleFields c.matchBits (firstSourceNumber (fieldZn w)) (secondSourceNumber (fieldZm w))
    (fieldZAda w c.esize.tileBits)

theorem withFieldsOf_eq (c : EncodingClass) (w : Word) :
    c.withFieldsOf w = c.matchBits ||| (w &&& operandBits c.esize) := by
  rw [EncodingClass.withFieldsOf, assembleFields, extractLsb'_firstSourceNumber, extractLsb'_secondSourceNumber,
    ← fields_eq_and_operandBits]
  simp only [BitVec.or_assoc]

/-- A word belongs to a class exactly when the class's match and the word's own fields make it again: the key to both
directions of the round trip. -/
theorem covers_iff_withFieldsOf_eq {c : EncodingClass} (hc : c ∈ encodingTable) (w : Word) :
    c.covers w = true ↔ c.withFieldsOf w = w := by
  rw [EncodingClass.covers_iff, withFieldsOf_eq]
  constructor
  · intro h
    rw [← h, mask_eq_not_operandBits c hc, ← BitVec.and_or_distrib_left, BitVec.or_comm, BitVec.or_not_self,
      BitVec.and_allOnes]
  · intro h
    rw [← h, BitVec.and_or_distrib_right, matchBits_and_mask c hc, mask_eq_not_operandBits c hc, BitVec.and_assoc]
    simp

theorem withFieldsOf_assembleFields {c : EncodingClass} (hc : c ∈ encodingTable) (n m : BitVec 5)
    (da : BitVec c.esize.tileBits) :
    c.withFieldsOf (assembleFields c.matchBits n m da) = assembleFields c.matchBits n m da := by
  rw [EncodingClass.withFieldsOf, fieldZm_assembleFields hc, fieldZn_assembleFields hc, fieldZAda_assembleFields hc,
    assembleFields, extractLsb'_firstSourceNumber, extractLsb'_secondSourceNumber]
  rfl

/-- An assembled word decodes by the class whose match it has. -/
theorem decodeWord_assembleFields {c : EncodingClass} (hc : c ∈ encodingTable) (n m : BitVec 5)
    (da : BitVec c.esize.tileBits) :
    decodeWord (assembleFields c.matchBits n m da) = some (c.instr (assembleFields c.matchBits n m da)) :=
  (decodeWord_eq_some_iff _ _).2
    ⟨c, hc, (covers_iff_withFieldsOf_eq hc _).2 (withFieldsOf_assembleFields hc n m da), rfl⟩

/-! ### The instruction of a word -/

/-- Each class's decode hands over its constants and the numbers its fields make (R75 to R77). -/
theorem record_instr (c : EncodingClass) (w : Word) : (c.instr w).record =
    { esize := c.esize, n := firstSourceNumber (fieldZn w), m := secondSourceNumber (fieldZm w), nreg := c.nreg,
      mreg := c.mreg, da := (fieldZAda w c.esize.tileBits).toNat, subOp := false } := by
  obtain ⟨es, nreg, mreg, -, -⟩ := c
  cases es <;> cases nreg <;> cases mreg <;> rfl

/-- Legal operands put into a word's fields are the operands its class's decode hands over. -/
theorem record_instr_assembleFields {c : EncodingClass} (hc : c ∈ encodingTable) {n m : BitVec 5}
    (hn : firstSourceLegal n = true) (hm : secondSourceLegal m = true) (da : BitVec c.esize.tileBits) :
    (c.instr (assembleFields c.matchBits n m da)).record =
      { esize := c.esize, n := n, m := m, nreg := c.nreg, mreg := c.mreg, da := da.toNat, subOp := false } := by
  rw [record_instr, fieldZm_assembleFields hc, fieldZn_assembleFields hc, fieldZAda_assembleFields hc,
    (firstSourceLegal_iff n).1 hn, (secondSourceLegal_iff m).1 hm]

/-- The encoder's match of each class is the table's (R74, R86). -/
theorem encode_instr {c : EncodingClass} (hc : c ∈ encodingTable) (w : Word) :
    encode (c.instr w) = c.withFieldsOf w := by
  simp only [encodingTable, List.mem_cons, List.not_mem_nil, or_false] at hc
  rcases hc with rfl | rfl | rfl | rfl | rfl | rfl | rfl | rfl | rfl | rfl | rfl | rfl <;> rfl

theorem wf_eq_record (i : Instr) : i.wf = (firstSourceLegal i.record.n && secondSourceLegal i.record.m) := by
  cases i <;> rfl

theorem record_da_lt (i : Instr) : i.record.da < 2 ^ i.record.esize.tileBits := by
  cases i <;> exact BitVec.isLt _

@[simp] theorem record_subOp (i : Instr) : i.record.subOp = false := by
  cases i <;> rfl

/-- A decoded word is the word of a well-formed instruction. -/
theorem encode_of_decodeWord {w : Word} {i : Instr} (h : decodeWord w = some i) : encode i = w ∧ i.wf = true := by
  obtain ⟨c, hc, hcw, rfl⟩ := (decodeWord_eq_some_iff w i).1 h
  refine ⟨(encode_instr hc w).trans ((covers_iff_withFieldsOf_eq hc w).1 hcw), ?_⟩
  rw [wf_eq_record, record_instr, firstSourceLegal_firstSourceNumber, secondSourceLegal_secondSourceNumber,
    Bool.and_self]

/-- Nothing an assembler must reject in an operand whose registers are to lie in `lo..hi` (R86). -/
def AsmSource.Legal (a : AsmSource) (es : ESize) (lo hi : Nat) : Prop :=
  a.hasSuffix es = true ∧ a.within lo hi = true ∧ a.firstReg % 2 = 0 ∧ a.consecutive = true

end Sys2Proof

namespace Sys2Proof.Machine

/-! ### Decoding what was encoded -/

/-- The printed line names every operand (R83). -/
theorem lineInstr_disassemble (i : Instr) : lineInstr (disassemble i) = i := by
  cases i <;> simp [lineInstr, disassemble, disassembleSource, Instr.record, sourceShape, AsmSource.firstReg]

/-- An instruction is determined by its decoded record (R100), of which its printed line is made. -/
theorem eq_of_record_eq {i j : Instr} (h : i.record = j.record) : i = j := by
  rw [← lineInstr_disassemble i, ← lineInstr_disassemble j, disassemble, disassemble, h]

/-- Every well-formed instruction is what its class's decode makes of a word assembled for the class. -/
theorem exists_instr_assembleFields {i : Instr} (hwf : i.wf = true) : ∃ c ∈ encodingTable,
    ∃ (n m : BitVec 5) (da : BitVec c.esize.tileBits), c.instr (assembleFields c.matchBits n m da) = i := by
  obtain ⟨c, hc, hes, hnreg, hmreg⟩ := exists_class i.record.esize i.record.nreg i.record.mreg
  refine ⟨c, hc, i.record.n, i.record.m, BitVec.ofNat _ i.record.da, eq_of_record_eq ?_⟩
  rw [wf_eq_record, Bool.and_eq_true] at hwf
  obtain ⟨hn, hm⟩ := hwf
  have hda := record_da_lt i
  rw [← hes] at hda
  rw [record_instr_assembleFields hc hn hm, BitVec.toNat_ofNat, Nat.mod_eq_of_lt hda, hes, hnreg, hmreg,
    ← record_subOp i]

theorem decodeWord_encode {i : Instr} (hwf : i.wf = true) : decodeWord (encode i) = some i := by
  obtain ⟨c, hc, n, m, da, rfl⟩ := exists_instr_assembleFields hwf
  rw [encode_instr hc, withFieldsOf_assembleFields hc]
  exact decodeWord_assembleFields hc n m da

/-! ### Words outside the classes and missing features -/

/-- A fetched word that is no instruction is refused (R80). -/
theorem step_of_decodeWord_none {s : State} {w : Word} (h : fetchWord s = .ok w) (hw : decodeWord w = none) :
    step s = .refused .notThisInstruction := by
  simp only [step, h, hw]

/-- The feature test, which comes before the enable check, alone decides on `Undefined` (R78, R173). -/
theorem exec_eq_undefined_iff (i : Instr) (s : State) :
    exec i s = .fault .undefined ↔ featuresPresent i.record.esize s.params = false := by
  rw [exec_eq]
  rcases fmop4a_cases i.record s with ⟨hf, h⟩ | ⟨hf, why, -, h⟩ | ⟨hf, -, h⟩ <;> simp [h, hf]

/-! ### Operands of a line -/

theorem firstReg_of_within {a : AsmSource} {lo hi : Nat} (h : a.within lo hi = true) :
    lo ≤ a.firstReg ∧ a.firstReg ≤ hi := by
  cases a with
  | reg k es => simpa [AsmSource.within, AsmSource.firstReg] using h
  | pair k es k' es' =>
    simp only [AsmSource.within, Bool.and_eq_true, decide_eq_true_eq] at h
    obtain ⟨⟨hfirst, -⟩, -⟩ := h
    exact hfirst

/-- A legal operand is what is printed of its shape and its first register (R82). -/
theorem disassembleSource_of_legal {a : AsmSource} {es : ESize} {lo hi : Nat} (h : a.Legal es lo hi) (hhi : hi < 32) :
    disassembleSource es (sourceShape a) (BitVec.ofNat 5 a.firstReg) = a := by
  obtain ⟨hsuffix, hwithin, -, hpair⟩ := h
  obtain ⟨-, hmax⟩ := firstReg_of_within hwithin
  have hreg : (BitVec.ofNat 5 a.firstReg).toNat = a.firstReg := Nat.mod_eq_of_lt (by omega)
  cases a with
  | reg k es' =>
    obtain rfl : es' = es := by simpa [AsmSource.hasSuffix] using hsuffix
    rw [sourceShape, disassembleSource, hreg, AsmSource.firstReg]
  | pair k es₁ k' es₂ =>
    obtain ⟨rfl, rfl⟩ : es₁ = es ∧ es₂ = es := by simpa [AsmSource.hasSuffix] using hsuffix
    obtain rfl : k' = k + 1 := by simpa [AsmSource.consecutive] using hpair
    rw [sourceShape, disassembleSource, hreg, AsmSource.firstReg]

/-- What is printed of an even register and its successor is legal where both lie in the range (R82, R86). -/
theorem legal_disassembleSource (es : ESize) (count : NumRegs) (first : BitVec 5) {lo hi : Nat}
    (heven : first.toNat % 2 = 0) (hlo : lo ≤ first.toNat) (hhi : first.toNat + 1 ≤ hi) :
    (disassembleSource es count first).Legal es lo hi := by
  have hlo' : lo ≤ first.toNat + 1 := by omega
  have hhi' : first.toNat ≤ hi := by omega
  cases count with
  | one => exact ⟨by simp [disassembleSource, AsmSource.hasSuffix],
      by simp [disassembleSource, AsmSource.within, hlo, hhi'], heven, rfl⟩
  | two => exact ⟨by simp [disassembleSource, AsmSource.hasSuffix],
      by simp [disassembleSource, AsmSource.within, hlo, hhi, hlo', hhi'], heven,
      by simp [disassembleSource, AsmSource.consecutive]⟩

/-! ### What the assembler accepts -/

theorem ite_some_eq_none {α : Type} (p : Prop) [Decidable p] (x : α) (o : Option α) :
    (if p then some x else o) = none ↔ ¬ p ∧ o = none := by
  by_cases h : p <;> simp [h]

/-- The lines with nothing to reject (R86). -/
theorem problem_eq_none_iff (l : AsmLine) :
    l.problem = none ↔ l.tile < l.suffix.tiles ∧ l.first.Legal l.suffix 0 15 ∧ l.second.Legal l.suffix 16 31 := by
  simp only [AsmLine.problem, ite_some_eq_none, AsmSource.Legal, not_or, Nat.mod_two_ne_one, Bool.not_eq_true',
    Bool.not_eq_false, Bool.and_eq_true, not_not]
  tauto

theorem assemble_eq_ok_iff (l : AsmLine) (w : Word) :
    assemble l = .ok w ↔ l.problem = none ∧ encode (lineInstr l) = w := by
  rw [assemble]
  cases l.problem <;> simp

theorem assemble_eq_error_iff (l : AsmLine) : (∃ e, assemble l = .error e) ↔ l.problem ≠ none := by
  rw [assemble]
  cases l.problem <;> simp

/-- The template is chosen by the suffix and the shapes of the sources (R81). -/
theorem record_lineInstr (l : AsmLine) : (lineInstr l).record =
    { esize := l.suffix, n := BitVec.ofNat 5 l.first.firstReg, m := BitVec.ofNat 5 l.second.firstReg,
      nreg := sourceShape l.first, mreg := sourceShape l.second, da := l.tile % l.suffix.tiles, subOp := false } := by
  rw [lineInstr]
  cases l.suffix <;> cases sourceShape l.first <;> cases sourceShape l.second <;> rfl

theorem wf_lineInstr {l : AsmLine} (h : l.problem = none) : (lineInstr l).wf = true := by
  obtain ⟨-, ⟨-, hfirst, hfirstEven, -⟩, -, hsecond, hsecondEven, -⟩ := (problem_eq_none_iff l).1 h
  have hn := firstReg_of_within hfirst
  have hm := firstReg_of_within hsecond
  rw [wf_eq_record, record_lineInstr]
  simp only [firstSourceLegal, secondSourceLegal, BitVec.toNat_ofNat, Bool.and_eq_true, beq_iff_eq, decide_eq_true_eq]
  omega

theorem disassemble_lineInstr {l : AsmLine} (h : l.problem = none) : disassemble (lineInstr l) = l := by
  obtain ⟨htile, hfirst, hsecond⟩ := (problem_eq_none_iff l).1 h
  rw [disassemble, record_lineInstr]
  simp only [disassembleSource_of_legal hfirst (by decide), disassembleSource_of_legal hsecond (by decide),
    Nat.mod_eq_of_lt htile]

theorem problem_disassemble {i : Instr} (hwf : i.wf = true) : (disassemble i).problem = none := by
  simp only [wf_eq_record, firstSourceLegal, secondSourceLegal, Bool.and_eq_true, beq_iff_eq, decide_eq_true_eq] at hwf
  obtain ⟨⟨hnEven, hnMax⟩, hmEven, hmMin⟩ := hwf
  have hmMax := i.record.m.isLt
  have htile : i.record.da < i.record.esize.tiles := (record_da_lt i).trans_eq i.record.esize.tiles_eq_two_pow.symm
  exact (problem_eq_none_iff _).2 ⟨htile, legal_disassembleSource _ _ _ hnEven (Nat.zero_le _) (by omega),
    legal_disassembleSource _ _ _ hmEven hmMin (by omega)⟩

end Sys2Proof.Machine

/-! ### The obligations -/

namespace Sys2Proof.Proofs.Encoding

open Sys2Proof.Machine

/-- Settles O1: the word of an instruction is one its class covers, with the instruction's operands in its fields. -/
theorem decodeOfEncode : Obligations.DecodeOfEncode := fun _ hwf => decodeWord_encode hwf

/-- Settles O2: a covered word is its class's match with its own fields. -/
theorem encodeOfDecode : Obligations.EncodeOfDecode := fun _ _ h => encode_of_decodeWord h

/-- Settles O3: two classes differ in a bit that both fix. -/
theorem classesPairwiseDisjoint : Obligations.ClassesPairwiseDisjoint := fun _ _ hc _ hd hcw hdw =>
  eq_of_covers hc hd hcw hdw

/-- Settles O4: field values make legal operands, which the decode reads back. -/
theorem everyFieldValueDecodes : Obligations.EveryFieldValueDecodes := by
  intro c hc zm zn zada hzm hzn hzada
  rw [ESize.tiles_eq_two_pow] at hzada
  have hn : ∀ zn < 8, firstSourceLegal (BitVec.ofNat 5 (2 * zn)) = true := by decide
  have hm : ∀ zm < 8, secondSourceLegal (BitVec.ofNat 5 (16 + 2 * zm)) = true := by decide
  rw [matchBits_or_fields c.matchBits _ hzm hzn hzada c.esize.tileBits_le]
  refine ⟨_, decodeWord_assembleFields hc _ _ _, ?_⟩
  rw [record_instr_assembleFields hc (hn zn hzn) (hm zm hzm), BitVec.toNat_ofNat, Nat.mod_eq_of_lt hzada]

/-- Settles O7: no class covers such a word; `instr[4]` is 0 in every word of a class. -/
theorem otherWordsRefused : Obligations.OtherWordsRefused := by
  refine ⟨fun s w hword hnone => ?_, fun w c hc hcw d hd => ?_⟩
  · obtain ⟨hpc, hbytes⟩ := hword
    exact step_of_decodeWord_none (fetchWord_of_bytes s w hpc hbytes) ((decodeWord_eq_none_iff w).2 hnone)
  · rw [Bool.eq_false_iff]
    intro hdw
    have hbit := bit4_of_covers hd hdw
    rw [BitVec.getLsbD_xor, bit4_of_covers hc hcw] at hbit
    exact absurd hbit (by decide)

/-- Settles O12: `Undefined` is the answer exactly when the class's feature test fails. -/
theorem missingFeatureIsUndefined : Obligations.MissingFeatureIsUndefined := by
  intro i s
  rw [exec_eq_undefined_iff]
  refine ⟨fun hes => ?_, fun hes => ?_, fun hes => ?_⟩
  · rw [hes, featuresPresent, Bool.and_eq_false_iff]
  · rw [hes, featuresPresent]
  · rw [hes, featuresPresent, Bool.and_eq_false_iff]

/-- Settles O55: the printed line is legal and stands for the instruction. -/
theorem assembleOfDisassemble : Obligations.AssembleOfDisassemble := fun i hwf =>
  (assemble_eq_ok_iff _ _).2 ⟨problem_disassemble hwf, congrArg encode (lineInstr_disassemble i)⟩

/-- Settles O56: an accepted line stands for a well-formed instruction, which prints as the line. -/
theorem acceptedLineRoundTrips : Obligations.AcceptedLineRoundTrips := by
  intro l w h
  obtain ⟨hlegal, rfl⟩ := (assemble_eq_ok_iff l w).1 h
  exact ⟨lineInstr l, decodeWord_encode (wf_lineInstr hlegal), disassemble_lineInstr hlegal⟩

/-- Settles O57: the assembler rejects a line exactly when its tile number or one of its operands is not legal. -/
theorem assemblerRejectsExactly : Obligations.AssemblerRejectsExactly := by
  intro l
  rw [assemble_eq_error_iff, Ne, problem_eq_none_iff]
  simp only [AsmSource.Legal, not_and_or, not_lt, Bool.not_eq_true, Nat.mod_two_ne_zero]
  tauto

end Sys2Proof.Proofs.Encoding
end

section
/-! PROOFS. The family of 40_fmop4a.md: the dimensions and register numbers of the Operation (R114, R119), the order and
coverage of its loops (R119, R128), the closed form and the completion of each class (R121, R122), and what follows from it
(R130). -/

namespace Sys2Proof.Machine

/-! ### Dimensions -/

theorem bits_pos (es : ESize) : 0 < es.bits := by cases es <;> decide

/-- The tile is `k*k` elements (R114). -/
theorem tileSize_eq_elements (v : VecLen) (es : ESize) :
    tileSize v.bits es = sideOf v.bits es * sideOf v.bits es * es.bits := by
  rw [tileSize_eq, Nat.mul_assoc, side_mul_bits]

/-! ### Registers of a source operand -/

theorem firstSourceLegal_bounds {n : BitVec 5} (h : firstSourceLegal n = true) : n.toNat % 2 = 0 ∧ n.toNat ≤ 14 := by
  simpa [firstSourceLegal] using h

theorem secondSourceLegal_bounds {m : BitVec 5} (h : secondSourceLegal m = true) : m.toNat % 2 = 0 ∧ 16 ≤ m.toNat := by
  simpa [secondSourceLegal] using h

theorem record_wf_iff (rec : Record) : rec.wf = true ↔
    firstSourceLegal rec.n = true ∧ secondSourceLegal rec.m = true ∧ rec.da < rec.esize.tiles ∧ rec.subOp = false := by
  simp [Record.wf, and_assoc]

theorem count_eq_one_or_two (count : NumRegs) : count.count = 1 ∨ count.count = 2 := by
  cases count <;> simp [NumRegs.count]

/-- The registers of a group are at most one number apart (R117). -/
theorem groupOffset_le_one (count : NumRegs) {half : Nat} (h : half < 2) : (count.count - 1) * half ≤ 1 := by
  rcases count_eq_one_or_two count with hc | hc
  · rw [hc]; omega
  · rw [hc]; omega

/-- A group that starts at an even register does not wrap (R119). -/
theorem toNat_groupRegister {first : BitVec 5} (heven : first.toNat % 2 = 0) (count : NumRegs) {half : Nat}
    (h : half < 2) :
    (groupRegister first count.count half).toNat = first.toNat + (count.count - 1) * half := by
  have hoff := groupOffset_le_one count h
  have hlt := first.isLt
  rw [groupRegister, BitVec.toNat_add, BitVec.toNat_ofNat]
  omega

/-- The registers of a source operand by block, as R122 names them: one register for both blocks, or one for each. -/
def sourceRegister (first : BitVec 5) : NumRegs → Nat → BitVec 5
  | .one => fun _ => first
  | .two => pairOf first

theorem groupRegister_eq_sourceRegister (first : BitVec 5) (count : NumRegs) {half : Nat} (h : half < 2) :
    groupRegister first count.count half = sourceRegister first count half := by
  obtain rfl | rfl : half = 0 ∨ half = 1 := by omega
  · cases count <;> simp [groupRegister, NumRegs.count, sourceRegister, pairOf]
  · cases count <;> simp [groupRegister, NumRegs.count, sourceRegister, pairOf]

/-! ### Tile coordinates -/

/-- A coordinate of the tile lies in block 0 or block 1 (R121). -/
theorem block_lt_two {s : State} {es : ESize} {x : Nat} (h : x < side s es) : block s es x < 2 := by
  rw [side, currentVL, side_eq_two_dim, Nat.mul_comm] at h
  exact Nat.div_lt_of_lt_mul h

/-- A block and an offset in it are a coordinate of the tile. -/
theorem blockCoord_lt {d R x : Nat} (hR : R < 2) (hx : x < d) : R * d + x < 2 * d := by
  obtain rfl | rfl : R = 0 ∨ R = 1 := by omega
  · omega
  · omega

theorem rowMajor_lt {k r c : Nat} (hr : r < k) (hc : c < k) : r * k + c < k * k := by
  calc r * k + c < r * k + k := Nat.add_lt_add_left hc _
    _ = (r + 1) * k := (Nat.succ_mul r k).symm
    _ ≤ k * k := Nat.mul_le_mul_right k hr

/-! ### The iterations of the Operation's loops -/

theorem mem_iterations {d : Nat} {it : Nat × Nat × Nat} :
    it ∈ iterations d ↔ it.1 < 4 ∧ it.2.1 < d ∧ it.2.2 < d := by
  obtain ⟨o, row, col⟩ := it
  simp [iterations]

/-- The tile index is the row-major index of the iteration's row and column (R118). -/
theorem tileIndex_eq_rowMajor (d : Nat) (it : Nat × Nat × Nat) :
    tileIndex d it = (it.1 / 2 * d + it.2.1) * (2 * d) + (it.1 % 2 * d + it.2.2) := by
  rw [tileIndex]
  ring

/-- The row and the column of an iteration lie in the tile (R119). -/
theorem coords_of_mem_iterations {d : Nat} {it : Nat × Nat × Nat} (h : it ∈ iterations d) :
    it.1 / 2 * d + it.2.1 < 2 * d ∧ it.1 % 2 * d + it.2.2 < 2 * d := by
  obtain ⟨ho, hrow, hcol⟩ := mem_iterations.1 h
  exact ⟨blockCoord_lt (by omega) hrow, blockCoord_lt (by omega) hcol⟩

/-- Each iteration assigns an element of the tile (R119). -/
theorem tileIndex_lt {d : Nat} {it : Nat × Nat × Nat} (h : it ∈ iterations d) : tileIndex d it < 2 * d * (2 * d) := by
  obtain ⟨hr, hc⟩ := coords_of_mem_iterations h
  rw [tileIndex_eq_rowMajor]
  exact rowMajor_lt hr hc

/-- No two iterations assign one element (R119). -/
theorem eq_of_tileIndex_eq {d : Nat} {it it' : Nat × Nat × Nat} (h : it ∈ iterations d) (h' : it' ∈ iterations d)
    (heq : tileIndex d it = tileIndex d it') : it = it' := by
  obtain ⟨-, hc⟩ := coords_of_mem_iterations h
  obtain ⟨-, hc'⟩ := coords_of_mem_iterations h'
  obtain ⟨ho, hrow, hcol⟩ := mem_iterations.1 h
  obtain ⟨ho', hrow', hcol'⟩ := mem_iterations.1 h'
  rw [tileIndex_eq_rowMajor, tileIndex_eq_rowMajor] at heq
  obtain ⟨hr, hc⟩ := rowMajor_inj (2 * d) _ _ _ _ hc hc' heq
  obtain ⟨hR, hrowEq⟩ := block_inj d _ _ _ _ hrow hrow' hr
  obtain ⟨hC, hcolEq⟩ := block_inj d _ _ _ _ hcol hcol' hc
  exact Prod.ext (by omega) (Prod.ext hrowEq hcolEq)

/-- Every element of the tile is assigned by an iteration (R119). -/
theorem exists_iteration {d k : Nat} (h : k < 2 * d * (2 * d)) : ∃ it ∈ iterations d, tileIndex d it = k := by
  have hd : 0 < d := by
    rcases Nat.eq_zero_or_pos d with rfl | hd
    · simp at h
    · exact hd
  have hR : k / (2 * d) / d < 2 := Nat.div_lt_of_lt_mul (by rw [Nat.mul_comm d]; exact Nat.div_lt_of_lt_mul h)
  have hC : k % (2 * d) / d < 2 := Nat.div_lt_of_lt_mul (by rw [Nat.mul_comm d]; exact Nat.mod_lt _ (by omega))
  have hquarter : ∀ R C, C < 2 → (2 * R + C) / 2 = R ∧ (2 * R + C) % 2 = C := fun R C hlt => by omega
  obtain ⟨hdiv, hmod⟩ := hquarter (k / (2 * d) / d) _ hC
  refine ⟨(2 * (k / (2 * d) / d) + k % (2 * d) / d, k / (2 * d) % d, k % (2 * d) % d),
    mem_iterations.2 ⟨by omega, Nat.mod_lt _ hd, Nat.mod_lt _ hd⟩, ?_⟩
  rw [tileIndex_eq_rowMajor]
  simp only [hdiv, hmod, Nat.div_add_mod']

/-! ### The order of the loops -/

/-- A loop is a fold over the values of its variable (R12). -/
theorem forLoop_eq_foldl {α : Type} (n : Nat) (body : Nat → α → α) (a : α) :
    forLoop n body a = (List.range n).foldl (fun x i => body i x) a := by
  induction n with
  | zero => rfl
  | succ k ih => rw [forLoop, ih, List.range_succ, List.foldl_append]; rfl

/-- The three nested loops are one fold over their iterations (R113). -/
theorem outerProducts_eq_foldl (s : State) (rec : Record) (op3 init : BitVec (tileSize (currentVL s) rec.esize)) :
    outerProducts s rec op3 init =
      (iterations (dimOf (currentVL s) rec.esize)).foldl (fun result it => iterationBody s rec op3 it result) init := by
  simp only [outerProducts, forLoop_eq_foldl, iterations, List.foldl_flatMap, List.foldl_map]
  rfl

/-- Writes of different elements can be exchanged (R13). -/
theorem setElem_comm {w : Nat} (x : BitVec w) {i j : Nat} (size : Nat) (u v : BitVec size) (h : i ≠ j) :
    setElem (setElem x i size u) j size v = setElem (setElem x j size v) i size u := by
  refine BitVec.eq_of_getLsbD_eq fun b _ => ?_
  have hdisj : ¬ ((i * size ≤ b ∧ b < (i + 1) * size ∧ b < w) ∧ (j * size ≤ b ∧ b < (j + 1) * size ∧ b < w)) := by
    rintro ⟨⟨hi, hi', -⟩, hj, hj', -⟩
    rcases Nat.lt_or_gt_of_ne h with hlt | hgt
    · have : (i + 1) * size ≤ j * size := Nat.mul_le_mul_right size hlt
      omega
    · have : (j + 1) * size ≤ i * size := Nat.mul_le_mul_right size hgt
      omega
  simp only [getLsbD_setElem]
  split_ifs with hj hi
  · exact absurd ⟨hi, hj⟩ hdisj
  all_goals rfl

/-- Two iterations can be exchanged: neither reads the local `result`, and they write different elements (R128). -/
theorem iterationBody_comm (s : State) (rec : Record) (op3 result : BitVec (tileSize (currentVL s) rec.esize))
    {it it' : Nat × Nat × Nat} (h : it ∈ iterations (dimOf (currentVL s) rec.esize))
    (h' : it' ∈ iterations (dimOf (currentVL s) rec.esize)) :
    iterationBody s rec op3 it' (iterationBody s rec op3 it result) =
      iterationBody s rec op3 it (iterationBody s rec op3 it' result) := by
  by_cases heq : it = it'
  · rw [heq]
  · exact setElem_comm _ _ _ _ fun hidx => heq (eq_of_tileIndex_eq h h' hidx)

/-- What the local `result` starts as does not matter: every element of it is assigned (R119). -/
theorem outerProducts_init (s : State) (rec : Record) (op3 init init' : BitVec (tileSize (currentVL s) rec.esize)) :
    outerProducts s rec op3 init = outerProducts s rec op3 init' := by
  refine eq_of_elem_eq _ _ (sideOf (currentVL s) rec.esize * sideOf (currentVL s) rec.esize) _
    (tileSize_eq_elements s.params.vl rec.esize) fun i hi => ?_
  have hr : i / sideOf (currentVL s) rec.esize < sideOf (currentVL s) rec.esize := Nat.div_lt_of_lt_mul hi
  have hc : i % sideOf (currentVL s) rec.esize < sideOf (currentVL s) rec.esize :=
    Nat.mod_lt i (Nat.zero_lt_of_lt hr)
  rw [← Nat.div_add_mod' i (sideOf (currentVL s) rec.esize), elem_outerProducts s rec op3 init _ _ hr hc,
    elem_outerProducts s rec op3 init' _ _ hr hc]

/-! ### The effect of an instruction -/

theorem fmop4a_of_ready {rec : Record} {s : State} (h : Ready rec.esize s) :
    fmop4a rec s = .next ((operation s rec).withPc (s.pc + 4)) := by
  obtain ⟨hf, he⟩ := h
  rw [fmop4a, if_pos hf, (enableCheck_eq_none s).2 he]

theorem exec_of_ready {i : Instr} {s : State} (h : Ready i.record.esize s) :
    exec i s = .next ((operation s i.record).withPc (s.pc + 4)) :=
  (exec_eq i s).trans (fmop4a_of_ready h)

/-- The first-source element is used as it is where `sub_op` is FALSE (R124). -/
theorem firstElem_of_subOp_false (s : State) {rec : Record} (h : rec.subOp = false) (op1 : BitVec (currentVL s)) (r : Nat) :
    firstElem s rec op1 r = elem op1 r rec.esize.bits := by
  rw [firstElem, h, if_neg Bool.false_ne_true]

/-- The closed form of the Operation (R121). -/
theorem tileUpdated_of_fmop4a_next {rec : Record} {s t : State} (hda : rec.da < rec.esize.tiles) (hsub : rec.subOp = false)
    (h : fmop4a rec s = .next t) :
    TileUpdated rec.esize rec.da (groupRegister rec.n rec.nreg.count) (groupRegister rec.m rec.mreg.count) s t := by
  obtain ⟨-, -, rfl⟩ := fmop4a_next h
  intro r c hr hc
  have hop := tileElem_operation s rec r c hda hr hc
  rwa [firstElem_of_subOp_false s hsub] at hop

theorem record_da_lt_tiles (i : Instr) : i.record.da < i.record.esize.tiles := by
  rw [ESize.tiles_eq_two_pow]
  exact record_da_lt i

theorem tileUpdated_of_exec_next {i : Instr} {s t : State} (h : exec i s = .next t) :
    TileUpdated i.record.esize i.record.da (groupRegister i.record.n i.record.nreg.count)
      (groupRegister i.record.m i.record.mreg.count) s t :=
  tileUpdated_of_fmop4a_next (record_da_lt_tiles i) (record_subOp i) ((exec_eq i s).symm.trans h)

/-- The registers that feed a tile element, by block as R122 names them. -/
theorem tileUpdated_sourceRegister {es : ESize} {da : Nat} {n m : BitVec 5} {nreg mreg : NumRegs} {s t : State}
    (h : TileUpdated es da (groupRegister n nreg.count) (groupRegister m mreg.count) s t) :
    TileUpdated es da (sourceRegister n nreg) (sourceRegister m mreg) s t := by
  intro r c hr hc
  rw [h r c hr hc, groupRegister_eq_sourceRegister n nreg (block_lt_two hc),
    groupRegister_eq_sourceRegister m mreg (block_lt_two hr)]

/-- Every class completes when it is ready, with the registers of its shape (R121, R122). -/
theorem completes_of_ready (i : Instr) {s : State} (h : Ready i.record.esize s) :
    Completes i i.record.esize i.record.da (sourceRegister i.record.n i.record.nreg)
      (sourceRegister i.record.m i.record.mreg) s := by
  have hexec := exec_of_ready h
  obtain ⟨hsame, hout, hpc⟩ := frame_of_exec_next hexec
  exact ⟨_, hexec, tileUpdated_sourceRegister (tileUpdated_of_exec_next hexec), hpc, hsame, hout⟩

/-! ### What the frame keeps -/

section

variable {s t : State} (hsame : SameElsewhere s t)
include hsame

theorem currentVL_of_sameElsewhere : currentVL t = currentVL s := by
  obtain ⟨-, -, -, -, -, hparams⟩ := hsame
  rw [currentVL, hparams, currentVL]

theorem zElem_of_sameElsewhere (es : ESize) (i : BitVec 5) (j : Nat) : zElem t es i j = zElem s es i j := by
  have hvl := currentVL_of_sameElsewhere hsame
  obtain ⟨hz, -, -, -, -, -⟩ := hsame
  rw [zElem, zRead, hvl, hz, zElem, zRead]

theorem ready_of_sameElsewhere {es : ESize} (h : Ready es s) : Ready es t := by
  obtain ⟨-, -, hsm, hza, -, hparams⟩ := hsame
  rwa [Ready, Enabled, hparams, hsm, hza]

end

/-- A second update from the same registers applies the same multiply-add to what the first one left (R130). -/
theorem tileUpdated_twice {es : ESize} {da : Nat} {first second : Nat → BitVec 5} {s t u : State}
    (hsame : SameElsewhere s t) (hst : TileUpdated es da first second s t) (htu : TileUpdated es da first second t u)
    {r c : Nat} (hr : r < side s es) (hc : c < side s es) :
    tileElem u es da r c =
      fpMulAddZA s.params.fpUnit es
        (fpMulAddZA s.params.fpUnit es (tileElem s es da r c) (zElem s es (first (block s es c)) r)
          (zElem s es (second (block s es r)) c) s.fpcr)
        (zElem s es (first (block s es c)) r) (zElem s es (second (block s es r)) c) s.fpcr := by
  have hvl := currentVL_of_sameElsewhere hsame
  have hside : side t es = side s es := by rw [side, hvl]
  have hblock : ∀ x, block t es x = block s es x := fun x => by rw [block, hvl]
  rw [htu r c (hside ▸ hr) (hside ▸ hc), hst r c hr hc, zElem_of_sameElsewhere hsame, zElem_of_sameElsewhere hsame,
    hblock, hblock]
  obtain ⟨-, hfpcr, -, -, -, hparams⟩ := hsame
  rw [hfpcr, hparams]

/-! ### FPNeg -/

/-- The zero of sign 1 is the sign bit alone (R143). -/
theorem getLsbD_negativeZero (es : ESize) {b : Nat} (hb : b < es.bits) :
    (fpPack es true 0).getLsbD b = decide (b = es.bits - 1) := by
  rw [fpPack, if_pos rfl, Nat.add_zero, BitVec.getLsbD_ofNat, decide_eq_true hb, Bool.true_and, Nat.testBit_two_pow]
  exact decide_eq_decide.2 eq_comm

theorem getLsbD_fpNeg (es : ESize) (x : BitVec es.bits) (fpcr : BitVec 64) {b : Nat} (hb : b < es.bits) :
    (fpNeg es x fpcr).getLsbD b =
      if fpcrAH fpcr = true ∧ (fpClassify es x).isNaN = true then x.getLsbD b
      else if b = es.bits - 1 then !x.getLsbD b else x.getLsbD b := by
  simp only [fpNeg, Bool.and_eq_true]
  split_ifs with hkeep hsign
  · rfl
  · rw [BitVec.getLsbD_xor, getLsbD_negativeZero es hb, decide_eq_true hsign, Bool.xor_true]
  · rw [BitVec.getLsbD_xor, getLsbD_negativeZero es hb, decide_eq_false hsign, Bool.xor_false]

/-! ### Words as bytes -/

/-- The four bytes of an instruction's word, lowest address first, decode to it (R51). -/
theorem decodeBytes_of_decodeWord {b0 b1 b2 b3 : Byte} {i : Instr} (h : decodeWord (wordOfBytes b0 b1 b2 b3) = some i) :
    decodeBytes [b0, b1, b2, b3] = .ok (i, []) := by
  rw [decodeBytes, h]

end Sys2Proof.Machine

/-! ### The obligations -/

namespace Sys2Proof.Proofs.Operation

open Sys2Proof.Machine

/-- Settles O5: a decoded word's instruction is well-formed, and its record determines it. -/
theorem decodedRecordIsLegalAndAll : Obligations.DecodedRecordIsLegalAndAll := by
  intro w i h
  obtain ⟨-, hwf⟩ := encode_of_decodeWord h
  rw [wf_eq_record, Bool.and_eq_true] at hwf
  obtain ⟨hn, hm⟩ := hwf
  refine ⟨?_, firstSourceLegal_bounds hn, secondSourceLegal_bounds hm, count_eq_one_or_two _, count_eq_one_or_two _,
    record_da_lt_tiles i, record_subOp i, fun w' i' _ hrec s => ?_⟩
  · cases i.record.esize <;> simp
  · rw [exec_eq, exec_eq, hrec]

/-- Settles O16: the single-vector shape of the completion of every class. -/
theorem singleVectorsComplete : Obligations.SingleVectorsComplete := fun _ n m _ _ =>
  ⟨fun da => completes_of_ready (.fmop4aHSingle da n m), fun da => completes_of_ready (.fmop4aSSingle da n m),
    fun da => completes_of_ready (.fmop4aDSingle da n m)⟩

/-- Settles O17: the shape with a second source by block row. -/
theorem singleAndMultipleVectorsComplete : Obligations.SingleAndMultipleVectorsComplete := fun _ n m _ _ =>
  ⟨fun da => completes_of_ready (.fmop4aHSingleMultiple da n m),
    fun da => completes_of_ready (.fmop4aSSingleMultiple da n m),
    fun da => completes_of_ready (.fmop4aDSingleMultiple da n m)⟩

/-- Settles O18: the shape with a first source by block column. -/
theorem multipleAndSingleVectorsComplete : Obligations.MultipleAndSingleVectorsComplete := fun _ n m _ _ =>
  ⟨fun da => completes_of_ready (.fmop4aHMultipleSingle da n m),
    fun da => completes_of_ready (.fmop4aSMultipleSingle da n m),
    fun da => completes_of_ready (.fmop4aDMultipleSingle da n m)⟩

/-- Settles O19: the shape with both sources by block. -/
theorem multipleVectorsComplete : Obligations.MultipleVectorsComplete := fun _ n m _ _ =>
  ⟨fun da => completes_of_ready (.fmop4aHMultiple da n m), fun da => completes_of_ready (.fmop4aSMultiple da n m),
    fun da => completes_of_ready (.fmop4aDMultiple da n m)⟩

/-- Settles O20: the closed form, with the numbers of the registers of a legal record. -/
theorem loopNestIsClosedForm : Obligations.LoopNestIsClosedForm := by
  intro s rec hwf hready
  obtain ⟨hn, hm, hda, hsub⟩ := (record_wf_iff rec).1 hwf
  obtain ⟨hnEven, -⟩ := firstSourceLegal_bounds hn
  obtain ⟨hmEven, -⟩ := secondSourceLegal_bounds hm
  have hnext := fmop4a_of_ready hready
  exact ⟨_, hnext, rfl, fun r c hr hc => ⟨_, _, toNat_groupRegister hnEven rec.nreg (block_lt_two hc),
    toNat_groupRegister hmEven rec.mreg (block_lt_two hr), tileUpdated_of_fmop4a_next hda hsub hnext r c hr hc⟩⟩

/-- Settles O21: the loops are a fold over their iterations, any two of which can be exchanged. -/
theorem loopOrderNotObservable : Obligations.LoopOrderNotObservable := by
  intro s rec op3 init order hperm
  rw [outerProducts_eq_foldl]
  exact hperm.foldl_eq' (fun it h it' h' result =>
    iterationBody_comm s rec op3 result (hperm.mem_iff.1 h) (hperm.mem_iff.1 h')) init

/-- Settles O22: every element of the local `result` is assigned. -/
theorem initialResultNeverShows : Obligations.InitialResultNeverShows := outerProducts_init

/-- Settles O23: the tile index is row-major, and a row and a column are each a block and an offset in it. -/
theorem tileIndexBijection : Obligations.TileIndexBijection := by
  intro v es
  rw [side_eq_two_dim]
  refine ⟨fun o row col ho hrow hcol => tileIndex_lt (mem_iterations.2 ⟨ho, hrow, hcol⟩), fun k hk => ?_⟩
  obtain ⟨it, hit, rfl⟩ := exists_iteration hk
  exact ⟨it, ⟨mem_iterations.1 hit, rfl⟩, fun it' ⟨hit', heq⟩ => eq_of_tileIndex_eq (mem_iterations.2 hit') hit heq⟩

/-- Settles O27: the first execution leaves the sources, the parameters and `FPCR` for the second. -/
theorem twiceAccumulatesTwice : Obligations.TwiceAccumulatesTwice := by
  intro i s _ hready
  have hst := exec_of_ready hready
  obtain ⟨hsame, -, -⟩ := frame_of_exec_next hst
  have htu := exec_of_ready (ready_of_sameElsewhere hsame hready)
  exact ⟨_, _, hst, htu, fun r c hr hc =>
    tileUpdated_twice hsame (tileUpdated_of_exec_next hst) (tileUpdated_of_exec_next htu) hr hc⟩

/-- Settles O28: the closed form of a tile element names what it depends on. -/
theorem elementsIndependent : Obligations.ElementsIndependent := by
  intro i s s' t t' r c _ hparams hfpcr hr hc htile hfirst hsecond ht ht'
  have hvl : currentVL s = currentVL s' := by rw [currentVL, hparams, currentVL]
  have hside : side s i.record.esize = side s' i.record.esize := by rw [side, hvl]
  have hblock : ∀ x, block s i.record.esize x = block s' i.record.esize x := fun x => by rw [block, hvl]
  rw [tileUpdated_of_exec_next ht r c hr hc, tileUpdated_of_exec_next ht' r c (hside ▸ hr) (hside ▸ hc), htile, hfirst,
    hsecond, hparams, hfpcr, hblock, hblock]

/-- Settles O54: what is combined with the argument is its sign bit alone, and no record negates. -/
theorem fpNegMeaningAndAbsence : Obligations.FpNegMeaningAndAbsence :=
  ⟨fun es x fpcr _ hb => getLsbD_fpNeg es x fpcr hb, fun i s op1 r => firstElem_of_subOp_false s (record_subOp i) op1 r⟩

/-- Settles O6: the twelve words decode, and so do their bytes, which make up the same words. -/
theorem exampleWordsDecode : Obligations.ExampleWordsDecode := by
  unfold Obligations.ExampleWordsDecode
  refine ⟨by decide, by decide, by decide, ⟨?_, ?_, ?_, ?_⟩, ⟨?_, ?_, ?_, ?_⟩, ?_, ?_, ?_, ?_⟩
  all_goals exact decodeBytes_of_decodeWord (by decide)

/-- Settles O24: a group starts at an even register and has at most one more. -/
theorem groupRegistersInRange : Obligations.GroupRegistersInRange := by
  intro rec half hwf hhalf
  obtain ⟨hn, hm, -, -⟩ := (record_wf_iff rec).1 hwf
  obtain ⟨hnEven, hnMax⟩ := firstSourceLegal_bounds hn
  obtain ⟨hmEven, hmMin⟩ := secondSourceLegal_bounds hm
  have hnOff := groupOffset_le_one rec.nreg hhalf
  have hmOff := groupOffset_le_one rec.mreg hhalf
  have hmLt := rec.m.isLt
  exact ⟨toNat_groupRegister hnEven rec.nreg hhalf, by omega, toNat_groupRegister hmEven rec.mreg hhalf, hmMin, by omega⟩

/-- Settles O25: the tile is `k` rows of `VL` bits, and a row is `k` elements. -/
theorem dimensionsExact : Obligations.DimensionsExact := by
  intro v es
  refine ⟨?_, side_eq_two_dim v es, tileSize_eq_elements v es, ?_⟩
  · rw [← side_eq_two_dim, side_mul_bits]
  · refine (Nat.div_eq_of_eq_mul_left (bits_pos es) ?_).symm
    rw [tileSize_eq, Nat.mul_right_comm, side_mul_bits]

end Sys2Proof.Proofs.Operation
end

section
/-! PROOFS. The family of 41_fp_arith.md: a finite value by its fields and its real value (R143), unpacking (R145), the cases
of the multiply-add (R146 to R149), what `FPCR` fields it reads (R153), and rounding, overflow and the flush of results
(R142, R150, R151, R154). -/

namespace Sys2Proof.Machine

/-! ### Magnitudes with a sign -/

/-- A magnitude with a sign. -/
def withSign (neg : Bool) (k : Nat) : Int := if neg then -(k : Int) else k

theorem withSign_natAbs (v : Int) : withSign (decide (v < 0)) v.natAbs = v := by
  simp only [withSign, decide_eq_true_eq]
  split <;> omega

@[simp] theorem withSign_zero (neg : Bool) : withSign neg 0 = 0 := by cases neg <;> rfl

theorem withSign_not (neg : Bool) (k : Nat) : withSign (!neg) k = -withSign neg k := by
  cases neg <;> simp [withSign]

theorem withSign_mul (neg : Bool) (k u : Nat) : withSign neg (k * u) = withSign neg k * u := by
  cases neg <;> simp [withSign]

@[simp] theorem natAbs_withSign (neg : Bool) (k : Nat) : (withSign neg k).natAbs = k := by
  cases neg <;> simp [withSign]

@[simp] theorem abs_withSign (neg : Bool) (k : Nat) : |withSign neg k| = k := by
  rw [Int.abs_eq_natAbs, natAbs_withSign]

theorem decide_withSign_lt_zero {neg : Bool} {k : Nat} (hk : 0 < k) : decide (withSign neg k < 0) = neg := by
  cases neg <;> simp [withSign, hk]

/-! ### A value by the number its exponent and fraction fields make -/

/-- The exponent and fraction fields of a value, as one number (R143). -/
def fpField (es : ESize) (x : BitVec es.bits) : Nat := x.toNat % 2 ^ (es.bits - 1)

/-- The finite magnitude with the given exponent and fraction fields, in units of `2^-Q`: its significand, shifted by the
exponent field less one. -/
def fieldUnits (es : ESize) (field : Nat) : Nat :=
  (field - (field / 2 ^ fracBits es - 1) * 2 ^ fracBits es) * 2 ^ (field / 2 ^ fracBits es - 1)

theorem bits_sub_one (es : ESize) : es.bits - 1 = fracBits es + expBits es := by cases es <;> rfl

theorem fracBits_pos (es : ESize) : 0 < fracBits es := by cases es <;> decide

/-- The largest exponent field is twice the bias and one. -/
theorem two_pow_expBits (es : ESize) : 2 ^ expBits es = 2 * expBias es + 2 := by cases es <;> rfl

theorem infinityField_eq (es : ESize) : infinityField es = 2 * expBias es * 2 ^ fracBits es + 2 ^ fracBits es := by
  rw [infinityField, two_pow_expBits, ← Nat.succ_mul]
  rfl

theorem infinityField_pos (es : ESize) : 0 < infinityField es := by cases es <;> decide

theorem infinityField_lt (es : ESize) : infinityField es < 2 ^ (es.bits - 1) := by cases es <;> decide

theorem exponent_eq (es : ESize) (x : BitVec es.bits) :
    x.toNat / 2 ^ fracBits es % 2 ^ expBits es = fpField es x / 2 ^ fracBits es := by
  rw [fpField, bits_sub_one, Nat.pow_add, Nat.mod_mul_right_div_self]

theorem fraction_eq (es : ESize) (x : BitVec es.bits) :
    x.toNat % 2 ^ fracBits es = fpField es x % 2 ^ fracBits es := by
  rw [fpField, bits_sub_one, Nat.pow_add, Nat.mod_mul_right_mod]

theorem fieldUnits_of_lt {es : ESize} {field : Nat} (h : field < 2 ^ fracBits es) : fieldUnits es field = field := by
  simp [fieldUnits, Nat.div_eq_of_lt h]

/-- The magnitude of a normal number has the hidden bit (R143). -/
theorem fieldUnits_of_le {es : ESize} {field : Nat} (h : 2 ^ fracBits es ≤ field) :
    fieldUnits es field =
      (2 ^ fracBits es + field % 2 ^ fracBits es) * 2 ^ (field / 2 ^ fracBits es - 1) := by
  have hdiv : 0 < field / 2 ^ fracBits es := Nat.div_pos h (Nat.two_pow_pos _)
  have hsub := Nat.sub_one_mul (field / 2 ^ fracBits es) (2 ^ fracBits es)
  have hle := Nat.le_mul_of_pos_left (2 ^ fracBits es) hdiv
  have hmod := Nat.div_add_mod' field (2 ^ fracBits es)
  rw [fieldUnits]
  congr 1
  omega

/-- A significand `q` at the exponent that `c` stands for, one that carries out included. -/
theorem fieldUnits_mul_add {es : ESize} {c q : Nat} (hq : q ≤ 2 ^ (fracBits es + 1))
    (hc : c = 0 ∨ 2 ^ fracBits es ≤ q) : fieldUnits es (c * 2 ^ fracBits es + q) = q * 2 ^ c := by
  have hpos := Nat.two_pow_pos (fracBits es)
  rw [Nat.pow_succ] at hq
  have hdiv : (c * 2 ^ fracBits es + q) / 2 ^ fracBits es = c + q / 2 ^ fracBits es := by
    rw [Nat.add_comm, Nat.add_mul_div_right _ _ hpos, Nat.add_comm]
  rw [fieldUnits, hdiv]
  rcases Nat.lt_or_ge q (2 ^ fracBits es) with hsub | hnorm
  · obtain rfl : c = 0 := by omega
    simp [Nat.div_eq_of_lt hsub]
  · rcases Nat.lt_or_ge q (2 ^ fracBits es * 2) with hlt | hge
    · have hone : q / 2 ^ fracBits es = 1 := Nat.div_eq_of_lt_le (by omega) (by omega)
      rw [hone, Nat.add_sub_cancel, Nat.add_sub_cancel_left]
    · obtain rfl : q = 2 ^ fracBits es * 2 := by omega
      have hcarry : c * 2 ^ fracBits es + 2 ^ fracBits es * 2 - (c + 1) * 2 ^ fracBits es = 2 ^ fracBits es := by
        rw [Nat.succ_mul]
        omega
      rw [Nat.mul_div_cancel_left 2 hpos, Nat.add_succ_sub_one, hcarry, Nat.pow_succ', ← Nat.mul_assoc]

/-- Every number of fields is a significand at an exponent. -/
theorem exists_significand (es : ESize) (field : Nat) :
    ∃ c q, field = c * 2 ^ fracBits es + q ∧ q < 2 ^ (fracBits es + 1) ∧ (c = 0 ∨ 2 ^ fracBits es ≤ q) := by
  have hmod := Nat.mod_lt field (Nat.two_pow_pos (fracBits es))
  have hfield := Nat.div_add_mod' field (2 ^ fracBits es)
  rw [Nat.pow_succ]
  cases hdiv : field / 2 ^ fracBits es with
  | zero => exact ⟨0, field, by omega, by rw [hdiv] at hfield; omega, .inl rfl⟩
  | succ c =>
    rw [hdiv, Nat.succ_mul] at hfield
    exact ⟨c, 2 ^ fracBits es + field % 2 ^ fracBits es, by omega, by omega, .inr (by omega)⟩

/-- The order of the fields is that of the magnitudes. -/
theorem fieldUnits_strictMono (es : ESize) : StrictMono (fieldUnits es) := by
  refine strictMono_nat_of_lt_succ fun field => ?_
  obtain ⟨c, q, rfl, hq, hc⟩ := exists_significand es field
  rw [Nat.add_assoc, fieldUnits_mul_add hq.le hc, fieldUnits_mul_add hq (hc.imp_right Nat.le_succ_of_le)]
  exact Nat.mul_lt_mul_of_pos_right q.lt_succ_self (Nat.two_pow_pos c)

@[simp] theorem fieldUnits_zero (es : ESize) : fieldUnits es 0 = 0 := by simp [fieldUnits]

/-- Where an infinity stands, the magnitudes would go on with `2^(bias+1)`, in units of `2^-Q`. -/
theorem fieldUnits_infinityField (es : ESize) :
    fieldUnits es (infinityField es) = 2 ^ (expBias es + 1 + unitExp es) := by
  have hexp : expBias es + 1 + unitExp es = fracBits es + 2 * expBias es := by cases es <;> rfl
  rw [infinityField_eq, fieldUnits_mul_add (Nat.pow_le_pow_right (by decide) (Nat.le_succ _)) (.inr le_rfl), hexp,
    Nat.pow_add]

/-- A normal number's fields are at least `2^F`. -/
theorem le_fieldUnits_iff {es : ESize} {field : Nat} :
    2 ^ fracBits es ≤ fieldUnits es field ↔ 2 ^ fracBits es ≤ field := by
  rcases Nat.lt_or_ge field (2 ^ fracBits es) with h | h
  · rw [fieldUnits_of_lt h]
  · refine iff_of_true ?_ h
    rw [fieldUnits_of_le h]
    exact Nat.le_trans (Nat.le_add_right _ _) (Nat.le_mul_of_pos_right _ (Nat.two_pow_pos _))

/-! ### The classes of R143 by the fields -/

/-- Fields below an infinity's are a zero or a finite magnitude. -/
theorem fpClassify_of_lt {es : ESize} {x : BitVec es.bits} (h : fpField es x < infinityField es) :
    fpClassify es x =
      if fpField es x = 0 then .zero x.msb else .nonzero x.msb (fieldUnits es (fpField es x)) := by
  have hdiv : fpField es x / 2 ^ fracBits es < 2 ^ expBits es - 1 := Nat.div_lt_of_lt_mul (by rwa [Nat.mul_comm])
  simp only [fpClassify, exponent_eq, fraction_eq, hdiv.ne, if_false]
  rcases Nat.lt_or_ge (fpField es x) (2 ^ fracBits es) with hsub | hnorm
  · rw [if_pos (Nat.div_eq_of_lt hsub), Nat.mod_eq_of_lt hsub, fieldUnits_of_lt hsub]
  · have hpos := Nat.two_pow_pos (fracBits es)
    rw [if_neg (Nat.div_pos hnorm hpos).ne', if_neg (hpos.trans_le hnorm).ne', fieldUnits_of_le hnorm]

theorem fpClassify_of_eq {es : ESize} {x : BitVec es.bits} (h : fpField es x = infinityField es) :
    fpClassify es x = .infinity x.msb := by
  have hpos : 2 ^ expBits es - 1 ≠ 0 := by cases es <;> decide
  simp only [fpClassify, exponent_eq, fraction_eq, h, infinityField, Nat.mul_div_cancel _ (Nat.two_pow_pos _),
    Nat.mul_mod_left, hpos, if_true, if_false]

theorem isNaN_of_infinityField_lt {es : ESize} {x : BitVec es.bits} (h : infinityField es < fpField es x) :
    (fpClassify es x).isNaN = true := by
  have hlt : fpField es x < 2 ^ fracBits es * 2 ^ expBits es := by
    rw [← Nat.pow_add, ← bits_sub_one]
    exact Nat.mod_lt _ (Nat.two_pow_pos _)
  have hle := (Nat.le_div_iff_mul_le (Nat.two_pow_pos (fracBits es))).2 h.le
  have hdiv : fpField es x / 2 ^ fracBits es = 2 ^ expBits es - 1 := by
    have := Nat.div_lt_of_lt_mul hlt
    omega
  have hmod := Nat.div_add_mod' (fpField es x) (2 ^ fracBits es)
  rw [hdiv] at hmod
  have hpos : 2 ^ expBits es - 1 ≠ 0 := by cases es <;> decide
  have hfraction : fpField es x % 2 ^ fracBits es ≠ 0 := by
    intro h0
    rw [h0, Nat.add_zero] at hmod
    exact h.ne hmod
  simp only [fpClassify, exponent_eq, fraction_eq, hdiv, hpos, hfraction, if_true, if_false]
  split <;> rfl

/-- The finite numbers are those with fields below an infinity's (R143). -/
theorem isFinite_iff {es : ESize} {x : BitVec es.bits} :
    IsFinite (fpClassify es x) ↔ fpField es x < infinityField es := by
  rcases Nat.lt_trichotomy (fpField es x) (infinityField es) with h | h | h
  · refine iff_of_true ?_ h
    rw [fpClassify_of_lt h]
    split <;> exact ⟨rfl, rfl⟩
  · refine iff_of_false ?_ h.not_lt
    rw [fpClassify_of_eq h]
    exact fun ⟨_, hinf⟩ => Bool.noConfusion hinf
  · refine iff_of_false (fun hfin => ?_) h.not_gt
    obtain ⟨hnan, -⟩ := hfin
    rw [isNaN_of_infinityField_lt h] at hnan
    exact Bool.noConfusion hnan

theorem isZero_fpClassify {es : ESize} {x : BitVec es.bits} (h : fpField es x < infinityField es) :
    (fpClassify es x).isZero = decide (fpField es x = 0) := by
  rw [fpClassify_of_lt h]
  split <;> simp_all [FPValue.isZero]

/-- A finite value is its sign and the magnitude of its fields. -/
theorem units_fpClassify {es : ESize} {x : BitVec es.bits} (h : fpField es x < infinityField es) :
    (fpClassify es x).units = withSign x.msb (fieldUnits es (fpField es x)) := by
  rw [fpClassify_of_lt h]
  split <;> simp_all [FPValue.units, withSign]

/-! ### Packing -/

theorem toNat_fpPack {es : ESize} {neg : Bool} {field : Nat} (h : field < 2 ^ (es.bits - 1)) :
    (fpPack es neg field).toNat = (if neg then 2 ^ (es.bits - 1) else 0) + field := by
  have hbits : 2 ^ es.bits = 2 ^ (es.bits - 1) + 2 ^ (es.bits - 1) := by cases es <;> rfl
  rw [fpPack, BitVec.toNat_ofNat, Nat.mod_eq_of_lt]
  cases neg <;> simp only [Bool.false_eq_true, if_true, if_false] <;> omega

@[simp] theorem fpField_fpPack {es : ESize} {neg : Bool} {field : Nat} (h : field < 2 ^ (es.bits - 1)) :
    fpField es (fpPack es neg field) = field := by
  rw [fpField, toNat_fpPack h]
  cases neg <;> simp [Nat.mod_eq_of_lt h]

theorem getLsbD_zero_fpPack {es : ESize} {neg : Bool} {field : Nat} (h : field < 2 ^ (es.bits - 1)) :
    (fpPack es neg field).getLsbD 0 = decide (field % 2 = 1) := by
  have heven : 2 ∣ if neg then 2 ^ (es.bits - 1) else 0 := by cases es <;> cases neg <;> decide
  rw [BitVec.getLsbD, toNat_fpPack h, Nat.testBit_zero]
  congr 2
  omega

theorem msb_fpPack {es : ESize} {neg : Bool} {field : Nat} (h : field < 2 ^ (es.bits - 1)) :
    (fpPack es neg field).msb = neg := by
  rw [BitVec.msb_eq_decide, toNat_fpPack h]
  cases neg <;> simp [h]

/-- A value is its sign and its fields. -/
theorem fpPack_msb_fpField (es : ESize) (x : BitVec es.bits) : fpPack es x.msb (fpField es x) = x := by
  have hlt : fpField es x < 2 ^ (es.bits - 1) := Nat.mod_lt _ (Nat.two_pow_pos _)
  have hbits : 2 ^ es.bits = 2 * 2 ^ (es.bits - 1) := by cases es <;> rfl
  have hx := x.isLt
  have hmod := Nat.mod_add_div x.toNat (2 ^ (es.bits - 1))
  refine BitVec.eq_of_toNat_eq ?_
  rw [toNat_fpPack hlt, BitVec.msb_eq_decide, fpField]
  rcases Nat.lt_or_ge x.toNat (2 ^ (es.bits - 1)) with h | h
  · simp [h, Nat.mod_eq_of_lt h]
  · rw [Nat.mod_eq_sub_mod h, Nat.mod_eq_of_lt (by omega)]
    simp [h]

/-- What a finite number's fields unpack to. -/
theorem units_fpPack {es : ESize} {neg : Bool} {field : Nat} (h : field < infinityField es) :
    (fpClassify es (fpPack es neg field)).units = withSign neg (fieldUnits es field) := by
  have hlt := h.trans (infinityField_lt es)
  rw [units_fpClassify (by rwa [fpField_fpPack hlt]), fpField_fpPack hlt, msb_fpPack hlt]

theorem isFinite_fpPack {es : ESize} {neg : Bool} {field : Nat} (h : field ≤ infinityField es) :
    IsFinite (fpClassify es (fpPack es neg field)) ↔ field < infinityField es := by
  rw [isFinite_iff, fpField_fpPack (h.trans_lt (infinityField_lt es))]

/-! ### The real values (R143, R149) -/

/-- A magnitude in units of `2^-Q` is the layout's real number. -/
theorem units_eq_layoutValue {es : ESize} {x : BitVec es.bits} (h : IsFinite (fpClassify es x)) :
    ((fpClassify es x).units : ℚ) = layoutValue es x * 2 ^ unitExp es := by
  have hunit : (unitExp es : ℤ) = expBias es + fracBits es - 1 := by cases es <;> rfl
  have hsign : ∀ k : ℕ, (withSign x.msb k : ℚ) = (if x.msb then -1 else 1) * k := by
    intro k
    cases x.msb <;> simp [withSign]
  rw [units_fpClassify (isFinite_iff.1 h), hsign, layoutValue, mul_assoc]
  congr 1
  rw [exponent_eq, fraction_eq, ← zpow_natCast (2 : ℚ) (unitExp es), hunit]
  rcases Nat.lt_or_ge (fpField es x) (2 ^ fracBits es) with hsub | hnorm
  · have hexp : 1 - (expBias es : ℤ) - fracBits es + (expBias es + fracBits es - 1) = 0 := by ring
    rw [if_pos (Nat.div_eq_of_lt hsub), Nat.mod_eq_of_lt hsub, fieldUnits_of_lt hsub, mul_assoc,
      ← zpow_add₀ two_ne_zero, hexp, zpow_zero, mul_one]
  · have hpos := Nat.div_pos hnorm (Nat.two_pow_pos _)
    rw [if_neg hpos.ne', fieldUnits_of_le hnorm]
    obtain ⟨c, hc⟩ := Nat.exists_eq_succ_of_ne_zero hpos.ne'
    have hexp : ((c + 1 : ℕ) : ℤ) - expBias es + (expBias es + fracBits es - 1) = fracBits es + c := by
      push_cast
      ring
    rw [hc, mul_assoc, ← zpow_add₀ two_ne_zero, hexp, zpow_add₀ two_ne_zero, zpow_natCast, zpow_natCast]
    push_cast
    field_simp

/-! ### Unpacking (R145) -/

/-- What is no subnormal is unpacked as it is. -/
theorem fpUnpack_of_isNotSubnormal {es : ESize} {x : BitVec es.bits} (h : IsNotSubnormal es (fpClassify es x))
    (fpcr : BitVec 64) : fpUnpack es x fpcr = fpClassify es x := by
  obtain ⟨-, hsize⟩ := h
  unfold fpUnpack
  split
  · next sign magnitude heq =>
    rw [heq] at hsize
    have hle : ¬ magnitude < 2 ^ fracBits es := by
      cases sign <;> simpa [FPValue.isZero, FPValue.units] using hsize
    rw [if_neg fun hflush => hle hflush.2, heq]
  · rfl

theorem isZero_fpUnpack_of_isZero {es : ESize} {x : BitVec es.bits} (h : (fpClassify es x).isZero = true)
    (fpcr : BitVec 64) : (fpUnpack es x fpcr).isZero = true := by
  unfold fpUnpack
  split
  · next heq => simp [heq, FPValue.isZero] at h
  · exact h

/-- Fields below `2^F` are a zero or a subnormal, which input flushing makes a zero. -/
theorem fpUnpack_of_flushed {es : ESize} {x : BitVec es.bits} {fpcr : BitVec 64} (hflush : inputFlush es fpcr = true)
    (hsub : fpField es x < 2 ^ fracBits es) : fpUnpack es x fpcr = .zero x.msb := by
  have hinf : 2 ^ fracBits es < infinityField es := by cases es <;> decide
  rw [fpUnpack, fpClassify_of_lt (hsub.trans hinf), fieldUnits_of_lt hsub]
  split_ifs with h0
  · rfl
  · simp [hflush, hsub]

/-- Unpacking does not tell a subnormal it flushes from the zero of its sign. -/
theorem fpUnpack_flushedInput (es : ESize) (x : BitVec es.bits) (fpcr : BitVec 64) :
    fpUnpack es (flushedInput es x fpcr) fpcr = fpUnpack es x fpcr := by
  have hpos := Nat.two_pow_pos (fracBits es)
  simp only [flushedInput, exponent_eq, Nat.div_eq_zero_iff_lt hpos]
  split_ifs with h
  · obtain ⟨hflush, hsub⟩ := h
    have hlt := Nat.two_pow_pos (es.bits - 1)
    rw [fpUnpack_of_flushed hflush hsub, fpUnpack_of_flushed hflush (by rwa [fpField_fpPack hlt]), msb_fpPack hlt]
  · rfl

/-! ### The fields of `FPCR` the reference reads (R153) -/

theorem fpcrRMode_congr {fpcr fpcr' : BitVec 64} (h23 : fpcr.getLsbD 23 = fpcr'.getLsbD 23)
    (h22 : fpcr.getLsbD 22 = fpcr'.getLsbD 22) : fpcrRMode fpcr = fpcrRMode fpcr' := by
  simp only [fpcrRMode, h23, h22]

/-- The reference reads the rounding mode, `AH` and the two flush controls of the format. -/
theorem fpMulAddReference_congr {es : ESize} {fpcr fpcr' : BitVec 64} (hmode : fpcrRMode fpcr = fpcrRMode fpcr')
    (hah : fpcrAH fpcr = fpcrAH fpcr') (hin : inputFlush es fpcr = inputFlush es fpcr')
    (hout : resultFlush es fpcr = resultFlush es fpcr') (a x y : BitVec es.bits) :
    fpMulAddReference es a x y fpcr = fpMulAddReference es a x y fpcr' := by
  have hunpack : ∀ z : BitVec es.bits, fpUnpack es z fpcr = fpUnpack es z fpcr' := fun z => by
    simp only [fpUnpack, hin]
  have hround : ∀ neg k, fpRound es fpcr neg k = fpRound es fpcr' neg k := fun neg k => by
    rw [fpRound, resultFlushed, hmode, hah, hout, fpRound, resultFlushed]
  rw [fpMulAddReference_eq, hunpack, hunpack, hunpack, fpMulAddReference_eq]
  simp only [fpMulAddValues, fpNumeric, defaultNaN, hround, hmode, hah]

/-! ### The cases of the multiply-add (R146 to R149) -/

theorem eq_zero_of_isZero {v : FPValue} (h : v.isZero = true) : v = .zero v.sign := by
  cases v with
  | zero => rfl
  | _ => exact Bool.noConfusion h

theorem isFinite_of_isZero {v : FPValue} (h : v.isZero = true) : IsFinite v := by
  rw [eq_zero_of_isZero h]
  exact ⟨rfl, rfl⟩

theorem fpMulAddReference_of_isNaN {es : ESize} {a x y : BitVec es.bits} (fpcr : BitVec 64)
    (h : (fpClassify es a).isNaN = true ∨ (fpClassify es x).isNaN = true ∨ (fpClassify es y).isNaN = true) :
    fpMulAddReference es a x y fpcr = defaultNaN es fpcr := by
  rw [fpMulAddReference_eq, fpMulAddValues, if_pos (by simpa [or_assoc] using h)]

/-- Without a NaN, the multiply-add begins with the invalid operations. -/
theorem fpMulAddReference_of_no_NaN {es : ESize} {a x y : BitVec es.bits} (fpcr : BitVec 64)
    (ha : (fpClassify es a).isNaN = false) (hx : (fpClassify es x).isNaN = false)
    (hy : (fpClassify es y).isNaN = false) :
    fpMulAddReference es a x y fpcr =
      if invalidOp (fpUnpack es a fpcr) (fpUnpack es x fpcr) (fpUnpack es y fpcr) then defaultNaN es fpcr
      else if (fpUnpack es a fpcr).isInfinity then fpPack es a.msb (infinityField es)
      else if (fpUnpack es x fpcr).isInfinity || (fpUnpack es y fpcr).isInfinity then
        fpPack es (xor x.msb y.msb) (infinityField es)
      else if (fpUnpack es a fpcr).isZero && ((fpUnpack es x fpcr).isZero || (fpUnpack es y fpcr).isZero) &&
          (a.msb == xor x.msb y.msb) then fpPack es a.msb 0
      else fpNumeric es fpcr (fpUnpack es a fpcr) (fpUnpack es x fpcr) (fpUnpack es y fpcr) := by
  rw [fpMulAddReference_eq, fpMulAddValues, if_neg (by simp [ha, hx, hy])]
  simp only [productSign, sign_fpUnpack]

/-- With an infinite addend and an infinite product that may be added, the signs agree (R147). -/
theorem sign_eq_productSign_of_invalidOp_eq_false {a x y : FPValue} (h : invalidOp a x y = false)
    (ha : a.isInfinity = true) (hxy : (x.isInfinity || y.isInfinity) = true) : a.sign = productSign x y := by
  simp only [invalidOp, ha, hxy, Bool.or_eq_false_iff, Bool.true_and, bne_eq_false_iff_eq] at h
  obtain ⟨-, hsign⟩ := h
  exact hsign

theorem units_of_isZero {v : FPValue} (h : v.isZero = true) : v.units = 0 := by
  rw [eq_zero_of_isZero h]
  rfl

/-- A zero addend with a zero product sums to zero, whatever the signs. -/
theorem exactSum_of_isZero {es : ESize} {a x y : FPValue} (ha : a.isZero = true)
    (hxy : x.isZero = true ∨ y.isZero = true) : exactSum es a x y = 0 := by
  rcases hxy with h | h <;> simp [exactSum, units_of_isZero ha, units_of_isZero h]

/-- The two factors have one exact product, one sign and one set of invalid operations. -/
theorem fpMulAddValues_comm (es : ESize) (fpcr : BitVec 64) (a x y : FPValue) :
    fpMulAddValues es fpcr a x y = fpMulAddValues es fpcr a y x := by
  have hsign : productSign x y = productSign y x := Bool.xor_comm _ _
  have hsum : exactSum es a x y = exactSum es a y x := by rw [exactSum, Int.mul_comm x.units, exactSum]
  have hinvalid : invalidOp a x y = invalidOp a y x := by
    rw [invalidOp, hsign, Bool.and_comm x.isInfinity, Bool.and_comm x.isZero, Bool.or_comm (y.isZero && _),
      Bool.or_comm x.isInfinity, invalidOp]
  simp only [fpMulAddValues, fpNumeric, hinvalid, hsign, hsum, Bool.or_comm x.isInfinity, Bool.or_comm x.isZero,
    Bool.or_assoc a.isNaN, Bool.or_comm x.isNaN]

/-- Finite arguments: a zero sum gives a zero, any other is rounded (R148, R149). -/
theorem fpMulAddReference_of_isFinite {es : ESize} {a x y : BitVec es.bits} {fpcr : BitVec 64}
    (ha : IsFinite (fpUnpack es a fpcr)) (hx : IsFinite (fpUnpack es x fpcr)) (hy : IsFinite (fpUnpack es y fpcr)) :
    let v := exactSum es (fpUnpack es a fpcr) (fpUnpack es x fpcr) (fpUnpack es y fpcr)
    (v = 0 ∧ ∃ neg, fpMulAddReference es a x y fpcr = fpPack es neg 0) ∨
      (v ≠ 0 ∧ fpMulAddReference es a x y fpcr = fpRound es fpcr (decide (v < 0)) v.natAbs) := by
  rw [fpMulAddReference_eq, fpMulAddValues_finite _ _ _ _ _ ha hx hy]
  intro v
  split_ifs with hzero
  · simp only [Bool.and_eq_true, Bool.or_eq_true] at hzero
    obtain ⟨⟨haz, hxyz⟩, -⟩ := hzero
    exact .inl ⟨exactSum_of_isZero haz hxyz, _, rfl⟩
  · by_cases hv : v = 0
    · exact .inl ⟨hv, _, if_pos hv⟩
    · exact .inr ⟨hv, if_neg hv⟩

/-! ### What is cut off and what is kept (R150) -/

theorem le_roundAt (mode : RMode) (neg : Bool) (k cut : Nat) : k / 2 ^ cut ≤ roundAt mode neg k cut :=
  Nat.le_add_right _ _

theorem roundAt_le (mode : RMode) (neg : Bool) (k cut : Nat) : roundAt mode neg k cut ≤ k / 2 ^ cut + 1 := by
  rw [roundAt]
  split <;> omega

/-- With nothing cut off, nothing is rounded, in any mode. -/
theorem roundAt_mul_two_pow (mode : RMode) (neg : Bool) (q cut : Nat) : roundAt mode neg (q * 2 ^ cut) cut = q := by
  have hup : roundUp mode neg q 0 cut = false := by
    cases mode <;> simp [roundUp, (Nat.two_pow_pos cut).ne]
  rw [roundAt, Nat.mul_mod_left, Nat.mul_div_cancel _ (Nat.two_pow_pos cut), hup]
  rfl

theorem lt_succ_div_mul_two_pow (k cut : Nat) : k < (k / 2 ^ cut + 1) * 2 ^ cut := by
  rw [Nat.mul_comm]
  exact Nat.lt_mul_div_succ k (Nat.two_pow_pos cut)

/-- At most `F+1` significant bits are kept. -/
theorem div_two_pow_lt {es : ESize} {k cut : Nat} (h : Nat.log2 k - fracBits es ≤ cut) :
    k / 2 ^ cut < 2 ^ (fracBits es + 1) := by
  refine Nat.div_lt_of_lt_mul (Nat.lt_log2_self.trans_le ?_)
  rw [← Nat.pow_add]
  exact Nat.pow_le_pow_right (by decide) (by omega)

/-- All `F+1` significant bits are kept, where nothing forces a larger cut. -/
theorem le_div_two_pow {es : ESize} {k cut : Nat} (hpos : 0 < cut) (h : cut = Nat.log2 k - fracBits es) :
    2 ^ fracBits es ≤ k / 2 ^ cut := by
  have hk : k ≠ 0 := by
    rintro rfl
    rw [Nat.log2_zero] at h
    omega
  have hlog : fracBits es + cut = Nat.log2 k := by omega
  rw [Nat.le_div_iff_mul_le (Nat.two_pow_pos cut), ← Nat.pow_add, hlog]
  exact Nat.log2_self_le hk

theorem log2_sub_le_cutOf (es : ESize) (k : Nat) : Nat.log2 k - fracBits es ≤ cutOf es k := Nat.le_max_left _ _

theorem unitExp_le_cutOf (es : ESize) (k : Nat) : unitExp es ≤ cutOf es k := Nat.le_max_right _ _

/-- A cut beyond whole units is one that keeps `F+1` significant bits. -/
theorem cutOf_eq_of_unitExp_lt {es : ESize} {k : Nat} (h : unitExp es < cutOf es k) :
    cutOf es k = Nat.log2 k - fracBits es := by
  rw [cutOf] at *
  omega

/-- The exponent and fraction fields of a rounded magnitude in `2^-2Q`, an overflow's included. -/
def roundedField (es : ESize) (mode : RMode) (neg : Bool) (k : Nat) : Nat :=
  (cutOf es k - unitExp es) * 2 ^ fracBits es + roundAt mode neg k (cutOf es k)

theorem fpRoundFinite_eq (es : ESize) (mode : RMode) (neg : Bool) (k : Nat) :
    fpRoundFinite es mode neg k =
      if infinityField es ≤ roundedField es mode neg k then fpOverflow es mode neg
      else fpPack es neg (roundedField es mode neg k) := rfl

/-- The fields of the rounded number stand for it, a carry out of the significand included. -/
theorem fieldUnits_roundedField (es : ESize) (mode : RMode) (neg : Bool) (k : Nat) :
    fieldUnits es (roundedField es mode neg k) * 2 ^ unitExp es =
      roundAt mode neg k (cutOf es k) * 2 ^ cutOf es k := by
  have hle : roundAt mode neg k (cutOf es k) ≤ 2 ^ (fracBits es + 1) :=
    (roundAt_le mode neg k _).trans (div_two_pow_lt (log2_sub_le_cutOf es k))
  have hnorm : cutOf es k - unitExp es = 0 ∨ 2 ^ fracBits es ≤ roundAt mode neg k (cutOf es k) := by
    rcases (unitExp_le_cutOf es k).eq_or_lt with heq | hlt
    · exact .inl (by omega)
    · exact .inr ((le_div_two_pow (by omega) (cutOf_eq_of_unitExp_lt hlt)).trans (le_roundAt mode neg k _))
  rw [roundedField, fieldUnits_mul_add hle hnorm, Nat.mul_assoc, ← Nat.pow_add,
    Nat.sub_add_cancel (unitExp_le_cutOf es k)]

/-- No magnitude of the format lies strictly between the two neighbours `k` is rounded to. -/
theorem fieldUnits_not_between (es : ESize) (k field : Nat) :
    fieldUnits es field * 2 ^ unitExp es ≤ k / 2 ^ cutOf es k * 2 ^ cutOf es k ∨
      (k / 2 ^ cutOf es k + 1) * 2 ^ cutOf es k ≤ fieldUnits es field * 2 ^ unitExp es := by
  obtain ⟨c, q, rfl, hq, hc⟩ := exists_significand es field
  rw [fieldUnits_mul_add hq.le hc, Nat.mul_assoc, ← Nat.pow_add]
  rcases Nat.lt_or_ge (c + unitExp es) (cutOf es k) with hfine | hcoarse
  · refine .inl ?_
    have hkept := le_div_two_pow (es := es) (by omega) (cutOf_eq_of_unitExp_lt (k := k) (by omega))
    calc q * 2 ^ (c + unitExp es)
        ≤ 2 ^ (fracBits es + 1) * 2 ^ (c + unitExp es) := Nat.mul_le_mul_right _ hq.le
      _ = 2 ^ fracBits es * 2 ^ (c + unitExp es + 1) := by ring
      _ ≤ k / 2 ^ cutOf es k * 2 ^ cutOf es k := Nat.mul_le_mul hkept (Nat.pow_le_pow_right (by decide) hfine)
  · obtain ⟨d, hd⟩ := Nat.exists_eq_add_of_le' hcoarse
    rw [hd, Nat.pow_add, ← Nat.mul_assoc]
    exact (Nat.lt_or_ge (k / 2 ^ cutOf es k) (q * 2 ^ d)).symm.imp (Nat.mul_le_mul_right _) (Nat.mul_le_mul_right _)

/-! ### Every finite value against the rounded one (R142 P3, R150) -/

/-- A finite value of the format, in units of `2^-Q`. -/
def IsFormatUnits (es : ESize) (m : Int) : Prop := ∃ field < infinityField es, m.natAbs = fieldUnits es field

theorem isFormatUnits_of_isFinite {es : ESize} {u : BitVec es.bits} (h : IsFinite (fpClassify es u)) :
    IsFormatUnits es (fpClassify es u).units := by
  have hlt := isFinite_iff.1 h
  refine ⟨_, hlt, ?_⟩
  rw [units_fpClassify hlt, natAbs_withSign]

theorem IsFormatUnits.neg {es : ESize} {m : Int} (h : IsFormatUnits es m) : IsFormatUnits es (-m) := by
  rwa [IsFormatUnits, Int.natAbs_neg]

theorem IsFormatUnits.abs {es : ESize} {m : Int} (h : IsFormatUnits es m) : IsFormatUnits es |m| := by
  rwa [IsFormatUnits, Int.natAbs_abs]

theorem IsFormatUnits.not_between {es : ESize} {m : Int} (h : IsFormatUnits es m) (k : Nat) :
    m * 2 ^ unitExp es ≤ (k / 2 ^ cutOf es k * 2 ^ cutOf es k : Nat) ∨
      ((k / 2 ^ cutOf es k + 1) * 2 ^ cutOf es k : Nat) ≤ m * 2 ^ unitExp es := by
  obtain ⟨field, -, habs⟩ := h
  rcases Int.natAbs_eq m with hm | hm
  · rw [hm, habs]
    exact_mod_cast fieldUnits_not_between es k field
  · refine .inl (le_trans ?_ (Int.natCast_nonneg _))
    exact mul_nonpos_of_nonpos_of_nonneg (by omega) (by positivity)

/-- The largest finite magnitude has the fields before an infinity's. -/
theorem IsFormatUnits.le_largest {es : ESize} {m : Int} (h : IsFormatUnits es m) :
    m ≤ fieldUnits es (infinityField es - 1) := by
  obtain ⟨field, hlt, habs⟩ := h
  have hle : fieldUnits es field ≤ fieldUnits es (infinityField es - 1) :=
    (fieldUnits_strictMono es).monotone (Nat.le_sub_one_of_lt hlt)
  omega

/-! ### The directed modes -/

/-- Whether a directed mode rounds a number of sign `neg` away from zero. -/
def roundsAway (mode : RMode) (neg : Bool) : Bool :=
  match mode with
  | .rn => false
  | .rp => !neg
  | .rm => neg
  | .rz => false

/-- The finite magnitude with these fields bounds `k`, given in `2^-2Q`, as tightly as the format can: from above when
rounding away from zero, else from below. -/
def IsTightBound (es : ESize) (away : Bool) (k field : Nat) : Prop :=
  if away then
    k ≤ fieldUnits es field * 2 ^ unitExp es ∧
      ∀ m, IsFormatUnits es m → (k : Int) ≤ m * 2 ^ unitExp es → (fieldUnits es field : Int) ≤ m
  else
    fieldUnits es field * 2 ^ unitExp es ≤ k ∧
      ∀ m, IsFormatUnits es m → m * 2 ^ unitExp es ≤ (k : Int) → m ≤ fieldUnits es field

theorem isTightBound_zero (es : ESize) (away : Bool) : IsTightBound es away 0 0 := by
  have hpos : (0 : Int) < 2 ^ unitExp es := by positivity
  cases away with
  | true =>
    refine ⟨Nat.zero_le _, fun m _ h => ?_⟩
    rw [fieldUnits_zero]
    exact nonneg_of_mul_nonneg_left h hpos
  | false =>
    refine ⟨by rw [fieldUnits_zero, Nat.zero_mul], fun m _ h => ?_⟩
    rw [fieldUnits_zero]
    exact nonpos_of_mul_nonpos_left h hpos

/-- The kept part alone is the bound from below. -/
theorem isTightBound_false_of_eq {es : ESize} {k field : Nat}
    (h : fieldUnits es field * 2 ^ unitExp es = k / 2 ^ cutOf es k * 2 ^ cutOf es k) :
    IsTightBound es false k field := by
  have hpos : (0 : Int) < 2 ^ unitExp es := by positivity
  refine ⟨h.trans_le (Nat.div_mul_le_self _ _), fun m hm hle => ?_⟩
  rcases hm.not_between k with hbelow | habove
  · rw [← h] at hbelow
    exact le_of_mul_le_mul_right (by exact_mod_cast hbelow) hpos
  · have := lt_succ_div_mul_two_pow k (cutOf es k)
    omega

/-- The kept part, raised by one when anything is cut off, is the bound from above. -/
theorem isTightBound_true_of_eq {es : ESize} {k field : Nat}
    (h : fieldUnits es field * 2 ^ unitExp es =
      (k / 2 ^ cutOf es k + if k % 2 ^ cutOf es k = 0 then 0 else 1) * 2 ^ cutOf es k) :
    IsTightBound es true k field := by
  have hpos : (0 : Int) < 2 ^ unitExp es := by positivity
  have hk := Nat.div_add_mod' k (2 ^ cutOf es k)
  split at h
  · next hexact =>
    rw [hexact, Nat.add_zero] at hk
    rw [Nat.add_zero, hk] at h
    refine ⟨h.ge, fun m _ hle => ?_⟩
    rw [← h] at hle
    exact le_of_mul_le_mul_right (by exact_mod_cast hle) hpos
  · next hcut =>
    refine ⟨h ▸ (lt_succ_div_mul_two_pow k _).le, fun m hm hle => ?_⟩
    rcases hm.not_between k with hbelow | habove
    · omega
    · rw [← h] at habove
      exact le_of_mul_le_mul_right (by exact_mod_cast habove) hpos

theorem roundAt_directed {mode : RMode} (hmode : mode ≠ .rn) (neg : Bool) (k cut : Nat) :
    roundAt mode neg k cut =
      k / 2 ^ cut + if roundsAway mode neg then (if k % 2 ^ cut = 0 then 0 else 1) else 0 := by
  rw [roundAt]
  cases mode <;> cases neg <;> simp_all [roundUp, roundsAway]

theorem fpOverflow_directed {mode : RMode} (hmode : mode ≠ .rn) (es : ESize) (neg : Bool) :
    fpOverflow es mode neg =
      fpPack es neg (if roundsAway mode neg then infinityField es else infinityField es - 1) := by
  cases mode with
  | rn => exact absurd rfl hmode
  | _ => rfl

/-- A finite result of a directed mode is the tight bound on its side, the largest finite number on overflow included. -/
theorem fpRoundFinite_directed {es : ESize} {mode : RMode} (hmode : mode ≠ .rn) {neg : Bool} {k : Nat}
    (hfin : IsFinite (fpClassify es (fpRoundFinite es mode neg k))) :
    ∃ field < infinityField es, fpRoundFinite es mode neg k = fpPack es neg field ∧
      IsTightBound es (roundsAway mode neg) k field := by
  have hunits := fieldUnits_roundedField es mode neg k
  rw [roundAt_directed hmode] at hunits
  rw [fpRoundFinite_eq] at hfin ⊢
  split_ifs at hfin ⊢ with hover
  · rw [fpOverflow_directed hmode] at hfin ⊢
    cases haway : roundsAway mode neg with
    | true =>
      rw [haway, if_pos rfl, isFinite_fpPack le_rfl] at hfin
      exact absurd hfin (lt_irrefl _)
    | false =>
      rw [haway] at hunits
      refine ⟨infinityField es - 1, Nat.sub_one_lt (infinityField_pos es).ne', rfl, ?_, fun m hm _ => hm.le_largest⟩
      calc fieldUnits es (infinityField es - 1) * 2 ^ unitExp es
          ≤ fieldUnits es (roundedField es mode neg k) * 2 ^ unitExp es :=
            Nat.mul_le_mul_right _ ((fieldUnits_strictMono es).monotone (by omega))
        _ = k / 2 ^ cutOf es k * 2 ^ cutOf es k := hunits
        _ ≤ k := Nat.div_mul_le_self _ _
  · refine ⟨_, Nat.lt_of_not_le hover, rfl, ?_⟩
    cases haway : roundsAway mode neg with
    | true =>
      rw [haway] at hunits
      exact isTightBound_true_of_eq hunits
    | false =>
      rw [haway] at hunits
      exact isTightBound_false_of_eq hunits

/-! ### The mode to nearest -/

/-- The finite magnitude with these fields is nearest to `k`, given in `2^-2Q`, and even when another is as near. -/
def IsNearestEven (es : ESize) (k field : Nat) : Prop :=
  ∀ m, IsFormatUnits es m →
    |(k : Int) - fieldUnits es field * 2 ^ unitExp es| ≤ |(k : Int) - m * 2 ^ unitExp es| ∧
      (|(k : Int) - fieldUnits es field * 2 ^ unitExp es| = |(k : Int) - m * 2 ^ unitExp es| →
        m ≠ fieldUnits es field → field % 2 = 0)

theorem isNearestEven_zero (es : ESize) : IsNearestEven es 0 0 := fun m _ => by
  simp

/-- Of the two neighbours of `k`, the mode to nearest takes the nearer one, and the even one of a tie; what is not
between them is no nearer. -/
theorem roundAt_rn_nearest (neg : Bool) (k cut : Nat) {t : Int}
    (h : t ≤ (k / 2 ^ cut * 2 ^ cut : Nat) ∨ ((k / 2 ^ cut + 1) * 2 ^ cut : Nat) ≤ t) :
    |(k : Int) - (roundAt .rn neg k cut * 2 ^ cut : Nat)| ≤ |(k : Int) - t| ∧
      (|(k : Int) - (roundAt .rn neg k cut * 2 ^ cut : Nat)| = |(k : Int) - t| →
        t ≠ (roundAt .rn neg k cut * 2 ^ cut : Nat) → roundAt .rn neg k cut % 2 = 0) := by
  have hk := Nat.div_add_mod' k (2 ^ cut)
  have hrest := Nat.mod_lt k (Nat.two_pow_pos cut)
  have hsucc := Nat.succ_mul (k / 2 ^ cut) (2 ^ cut)
  simp only [roundAt, roundUp, Bool.or_eq_true, Bool.and_eq_true, decide_eq_true_eq, Int.abs_eq_natAbs]
  rw [Nat.succ_mul] at h
  split_ifs with hup
  · rw [Nat.succ_mul]
    omega
  · rw [Nat.add_zero]
    omega

theorem roundedField_mod_two (es : ESize) (mode : RMode) (neg : Bool) (k : Nat) :
    roundedField es mode neg k % 2 = roundAt mode neg k (cutOf es k) % 2 := by
  have heven : 2 ∣ (cutOf es k - unitExp es) * 2 ^ fracBits es :=
    Dvd.dvd.mul_left (dvd_pow_self 2 (fracBits_pos es).ne') _
  rw [roundedField]
  omega

/-- A finite result of the mode to nearest has the fields of the rounded number. -/
theorem fpRoundFinite_nearest {es : ESize} {neg : Bool} {k : Nat}
    (hfin : IsFinite (fpClassify es (fpRoundFinite es .rn neg k))) :
    ∃ field < infinityField es, fpRoundFinite es .rn neg k = fpPack es neg field ∧ IsNearestEven es k field := by
  rw [fpRoundFinite_eq] at hfin ⊢
  split_ifs at hfin ⊢ with hover
  · exact absurd ((isFinite_fpPack le_rfl).1 hfin) (lt_irrefl _)
  · refine ⟨_, Nat.lt_of_not_le hover, rfl, fun m hm => ?_⟩
    have hunits : (fieldUnits es (roundedField es .rn neg k) * 2 ^ unitExp es : Int) =
        (roundAt .rn neg k (cutOf es k) * 2 ^ cutOf es k : Nat) := by
      exact_mod_cast fieldUnits_roundedField es .rn neg k
    obtain ⟨hnear, htie⟩ := roundAt_rn_nearest neg k (cutOf es k) (hm.not_between k)
    rw [hunits, roundedField_mod_two]
    refine ⟨hnear, fun heq hne => htie heq fun hsame => hne ?_⟩
    rw [← hunits] at hsame
    exact mul_right_cancel₀ (by positivity) hsame

/-! ### Both signs -/

/-- Away from zero if positive and towards zero if negative, the bound is the least value not below. -/
theorem IsTightBound.ceil {es : ESize} {neg : Bool} {k field : Nat} (h : IsTightBound es (!neg) k field) :
    withSign neg k ≤ withSign neg (fieldUnits es field) * 2 ^ unitExp es ∧
      ∀ m, IsFormatUnits es m → withSign neg k ≤ m * 2 ^ unitExp es → withSign neg (fieldUnits es field) ≤ m := by
  cases neg with
  | false =>
    obtain ⟨hbound, htight⟩ := h
    have hbound' : (k : Int) ≤ fieldUnits es field * 2 ^ unitExp es := by exact_mod_cast hbound
    exact ⟨hbound', htight⟩
  | true =>
    obtain ⟨hbound, htight⟩ := h
    have hbound' : (fieldUnits es field * 2 ^ unitExp es : Int) ≤ k := by exact_mod_cast hbound
    simp only [withSign, if_true, Int.neg_mul]
    refine ⟨Int.neg_le_neg hbound', fun m hm hle => Int.neg_le_of_neg_le (htight (-m) hm.neg ?_)⟩
    rw [Int.neg_mul]
    exact Int.neg_le_of_neg_le hle

/-- Towards zero if positive and away from zero if negative, the bound is the greatest value not above. -/
theorem IsTightBound.floor {es : ESize} {neg : Bool} {k field : Nat} (h : IsTightBound es neg k field) :
    withSign neg (fieldUnits es field) * 2 ^ unitExp es ≤ withSign neg k ∧
      ∀ m, IsFormatUnits es m → m * 2 ^ unitExp es ≤ withSign neg k → m ≤ withSign neg (fieldUnits es field) := by
  rw [← Bool.not_not neg] at h
  obtain ⟨hbound, htight⟩ := h.ceil
  rw [withSign_not, withSign_not, Int.neg_mul, neg_le_neg_iff] at hbound
  refine ⟨hbound, fun m hm hle => ?_⟩
  have hneg := htight (-m) hm.neg (by rwa [withSign_not, Int.neg_mul, neg_le_neg_iff])
  rwa [withSign_not, neg_le_neg_iff] at hneg

/-- The bound from below is the greatest in magnitude not beyond, on its side of zero. -/
theorem IsTightBound.towardZero {es : ESize} {k field : Nat} (h : IsTightBound es false k field) (neg : Bool) :
    |withSign neg (fieldUnits es field) * 2 ^ unitExp es| ≤ |withSign neg k| ∧
      0 ≤ withSign neg (fieldUnits es field) * withSign neg k ∧
      ∀ m, IsFormatUnits es m → |m * 2 ^ unitExp es| ≤ |withSign neg k| →
        |m| ≤ |withSign neg (fieldUnits es field)| := by
  obtain ⟨hbound, htight⟩ := h
  have hunit : |(2 : Int) ^ unitExp es| = 2 ^ unitExp es := abs_of_pos (by positivity)
  simp only [abs_mul, hunit, abs_withSign]
  refine ⟨by exact_mod_cast hbound, ?_, fun m hm => htight |m| hm.abs⟩
  cases neg <;> simp only [withSign, Bool.false_eq_true, if_true, if_false, neg_mul_neg] <;> positivity

/-- Nearest in magnitude, with the sign, is nearest among the values of both signs. -/
theorem IsNearestEven.signed {es : ESize} {k field : Nat} (h : IsNearestEven es k field) (neg : Bool) {m : Int}
    (hm : IsFormatUnits es m) :
    |withSign neg k - withSign neg (fieldUnits es field) * 2 ^ unitExp es| ≤ |withSign neg k - m * 2 ^ unitExp es| ∧
      (|withSign neg k - withSign neg (fieldUnits es field) * 2 ^ unitExp es| =
          |withSign neg k - m * 2 ^ unitExp es| → m ≠ withSign neg (fieldUnits es field) → field % 2 = 0) := by
  cases neg with
  | false => exact h m hm
  | true =>
    have hmirror : ∀ t : Int, |-(k : Int) - t * 2 ^ unitExp es| = |(k : Int) - -t * 2 ^ unitExp es| := fun t => by
      rw [← abs_neg, Int.neg_mul, neg_sub, sub_neg_eq_add, sub_neg_eq_add, add_comm]
    obtain ⟨hnear, htie⟩ := h (-m) hm.neg
    simp only [withSign, if_true, hmirror, neg_neg]
    exact ⟨hnear, fun heq hne => htie heq fun h' => hne (neg_eq_iff_eq_neg.1 h')⟩

/-! ### The sum rounded and not flushed -/

theorem fpRound_of_resultFlush_eq_false {es : ESize} {fpcr : BitVec 64} (h : resultFlush es fpcr = false) (neg : Bool)
    (k : Nat) : fpRound es fpcr neg k = fpRoundFinite es (fpcrRMode fpcr) neg k := by
  simp [fpRound, resultFlushed, h]

/-- With no flush of results, a finite result has the fields that rounding gives for the exact sum's sign and magnitude:
what holds of zero and of every rounded number holds of them. -/
theorem exists_field_of_unflushed {es : ESize} {a x y : BitVec es.bits} {fpcr : BitVec 64}
    {P : Bool → Nat → Nat → Prop} (ha : IsFinite (fpUnpack es a fpcr)) (hx : IsFinite (fpUnpack es x fpcr))
    (hy : IsFinite (fpUnpack es y fpcr)) (hflush : resultFlush es fpcr = false)
    (hfin : IsFinite (fpClassify es (fpMulAddReference es a x y fpcr))) (hzero : ∀ neg, P neg 0 0)
    (hround : ∀ neg k, IsFinite (fpClassify es (fpRoundFinite es (fpcrRMode fpcr) neg k)) →
      ∃ field < infinityField es, fpRoundFinite es (fpcrRMode fpcr) neg k = fpPack es neg field ∧ P neg k field) :
    ∃ neg k, ∃ field < infinityField es,
      exactSum es (fpUnpack es a fpcr) (fpUnpack es x fpcr) (fpUnpack es y fpcr) = withSign neg k ∧
        fpMulAddReference es a x y fpcr = fpPack es neg field ∧ P neg k field := by
  rcases fpMulAddReference_of_isFinite ha hx hy with ⟨hv, neg, hres⟩ | ⟨-, hres⟩
  · exact ⟨neg, 0, 0, infinityField_pos es, hv.trans (withSign_zero neg).symm, hres, hzero neg⟩
  · rw [fpRound_of_resultFlush_eq_false hflush] at hres
    rw [hres] at hfin
    obtain ⟨field, hlt, hpack, hP⟩ := hround _ _ hfin
    exact ⟨_, _, field, hlt, (withSign_natAbs _).symm, hres.trans hpack, hP⟩

/-! ### Exact, overflowing and tiny sums -/

/-- A magnitude that is at least the smallest normal number's before and after rounding is not flushed. -/
theorem resultFlushed_eq_false {es : ESize} {fpcr : BitVec 64} {neg : Bool} {k : Nat}
    (hk : 2 ^ (fracBits es + unitExp es) ≤ k)
    (hround : 2 ^ (fracBits es + unitExp es) ≤ roundUnbounded es (fpcrRMode fpcr) neg k) :
    resultFlushed es fpcr neg k = false := by
  simp [resultFlushed, hk, hround]

/-- A normal number of the format, in `2^-2Q`, is rounded to itself. -/
theorem fpRound_fieldUnits {es : ESize} {field : Nat} (hnorm : 2 ^ fracBits es ≤ field) (hlt : field < infinityField es)
    (fpcr : BitVec 64) (neg : Bool) :
    fpRound es fpcr neg (fieldUnits es field * 2 ^ unitExp es) = fpPack es neg field := by
  obtain ⟨c, q, rfl, hq, hc⟩ := exists_significand es field
  have hqnorm : 2 ^ fracBits es ≤ q := hc.elim (fun h0 => by simpa [h0] using hnorm) id
  rw [fieldUnits_mul_add hq.le hc, Nat.mul_assoc, ← Nat.pow_add]
  have hpos : 0 < q := (Nat.two_pow_pos _).trans_le hqnorm
  have hlog : Nat.log2 (q * 2 ^ (c + unitExp es)) = fracBits es + (c + unitExp es) := by
    rw [Nat.log2_eq_iff (Nat.mul_pos hpos (Nat.two_pow_pos _)).ne', Nat.add_right_comm,
      Nat.pow_add 2 (fracBits es), Nat.pow_add 2 (fracBits es + 1)]
    exact ⟨Nat.mul_le_mul_right _ hqnorm, Nat.mul_lt_mul_of_pos_right hq (Nat.two_pow_pos _)⟩
  have hbig : 2 ^ (fracBits es + unitExp es) ≤ q * 2 ^ (c + unitExp es) := by
    rw [Nat.pow_add]
    exact Nat.mul_le_mul hqnorm (Nat.pow_le_pow_right (by decide) (Nat.le_add_left _ _))
  have hunbounded : ∀ mode, roundUnbounded es mode neg (q * 2 ^ (c + unitExp es)) = q * 2 ^ (c + unitExp es) := by
    intro mode
    rw [roundUnbounded, hlog, Nat.add_sub_cancel_left, roundAt_mul_two_pow]
  have hcut : cutOf es (q * 2 ^ (c + unitExp es)) = c + unitExp es := by
    rw [cutOf, hlog, Nat.add_sub_cancel_left]
    exact Nat.max_eq_left (Nat.le_add_left _ _)
  rw [fpRound, resultFlushed_eq_false hbig (hbig.trans_eq (hunbounded _).symm), if_neg Bool.false_ne_true,
    fpRoundFinite_eq, roundedField, hcut, Nat.add_sub_cancel, roundAt_mul_two_pow, if_neg hlt.not_ge]

/-- A sum that rounds to `2^(bias+1)` or more has a last kept bit above whole units. -/
theorem le_log2_of_overflow {es : ESize} {mode : RMode} {neg : Bool} {k : Nat}
    (h : 2 ^ (expBias es + 1 + 2 * unitExp es) ≤ roundUnbounded es mode neg k) :
    expBias es + 2 * unitExp es ≤ Nat.log2 k := by
  have hround : roundAt mode neg k (Nat.log2 k - fracBits es) ≤ 2 ^ (fracBits es + 1) :=
    (roundAt_le mode neg k _).trans (div_two_pow_lt le_rfl)
  have hpow : 2 ^ (expBias es + 1 + 2 * unitExp es) ≤ 2 ^ (fracBits es + 1 + (Nat.log2 k - fracBits es)) := by
    rw [Nat.pow_add 2 (fracBits es + 1)]
    exact h.trans (Nat.mul_le_mul_right _ hround)
  have hexp := (Nat.pow_le_pow_iff_right (by decide)).1 hpow
  have hsmall : fracBits es < expBias es + 2 * unitExp es := by cases es <;> decide
  omega

theorem pos_of_overflow {es : ESize} {mode : RMode} {neg : Bool} {k : Nat}
    (h : 2 ^ (expBias es + 1 + 2 * unitExp es) ≤ roundUnbounded es mode neg k) : 0 < k := by
  have hlog := le_log2_of_overflow h
  have hpos : 0 < expBias es + 2 * unitExp es := by cases es <;> decide
  refine Nat.pos_of_ne_zero ?_
  rintro rfl
  rw [Nat.log2_zero] at hlog
  omega

/-- Rounded at an unbounded exponent to `2^(bias+1)` or more, a sum overflows, and is not flushed. -/
theorem fpRound_of_overflow {es : ESize} {fpcr : BitVec 64} {neg : Bool} {k : Nat}
    (h : 2 ^ (expBias es + 1 + 2 * unitExp es) ≤ roundUnbounded es (fpcrRMode fpcr) neg k) :
    fpRound es fpcr neg k = fpOverflow es (fpcrRMode fpcr) neg := by
  have hlog := le_log2_of_overflow h
  have hnormal : fracBits es + unitExp es ≤ expBias es + 2 * unitExp es := by cases es <;> decide
  have hcut : cutOf es k = Nat.log2 k - fracBits es := Nat.max_eq_left (by omega)
  have hbig : 2 ^ (fracBits es + unitExp es) ≤ k :=
    (Nat.pow_le_pow_right (by decide) (hnormal.trans hlog)).trans (Nat.log2_self_le (pos_of_overflow h).ne')
  have hround := (Nat.pow_le_pow_right (n := 2) (by decide) (show fracBits es + unitExp es ≤ _ by omega)).trans h
  have hover : infinityField es ≤ roundedField es (fpcrRMode fpcr) neg k := by
    rw [← (fieldUnits_strictMono es).le_iff_le, fieldUnits_infinityField]
    refine Nat.le_of_mul_le_mul_right ?_ (Nat.two_pow_pos (unitExp es))
    rw [fieldUnits_roundedField, hcut, ← Nat.pow_add, Nat.add_assoc, ← Nat.two_mul]
    exact h
  rw [fpRound, resultFlushed_eq_false hbig hround, if_neg Bool.false_ne_true, fpRoundFinite_eq, if_pos hover]

end Sys2Proof.Machine

/-! ### The obligations -/

namespace Sys2Proof.Proofs.FpArith

open Sys2Proof.Machine

/-- Settles O38: a finite value is the significand and exponent of its fields. -/
theorem finiteValuesFollowLayout : Obligations.FiniteValuesFollowLayout := fun _ _ h => units_eq_layoutValue h

/-- Settles O39: both summands are whole numbers of `2^-2Q`. -/
theorem exactSumIsRealSum : Obligations.ExactSumIsRealSum := by
  intro es a x y ha hx hy
  have hsum : (exactSum es (fpClassify es a) (fpClassify es x) (fpClassify es y) : ℚ) =
      (fpClassify es a).units * 2 ^ unitExp es + (fpClassify es x).units * (fpClassify es y).units := by
    simp [exactSum]
  rw [hsum, units_eq_layoutValue ha, units_eq_layoutValue hx, units_eq_layoutValue hy]
  ring

/-- Settles O40: the first case of the multiply-add, and the default NaN of each precision. -/
theorem anyNaNGivesDefaultNaN : Obligations.AnyNaNGivesDefaultNaN := by
  refine ⟨fun a x y fpcr h => ?_, fun a x y fpcr h => ?_, fun a x y fpcr h => ?_⟩
  all_goals
    refine (fpMulAddReference_of_isNaN fpcr h).trans ?_
    rw [defaultNaN]
    cases fpcrAH fpcr <;> rfl

/-- Settles O41: the second case of the multiply-add. -/
theorem invalidOperationsGiveDefaultNaN : Obligations.InvalidOperationsGiveDefaultNaN := by
  intro es a x y fpcr ha hx hy h
  rw [fpMulAddReference_of_no_NaN fpcr ha hx hy, if_pos]
  simpa [invalidOp, productSign, or_assoc, and_assoc] using h

/-- Settles O42: the third, fourth and fifth case of the multiply-add; where the third and fourth meet, no invalid
operation means one sign. -/
theorem infinitiesAndLikeZeros : Obligations.InfinitiesAndLikeZeros := by
  intro es a x y fpcr ha hx hy hvalid
  rw [fpMulAddReference_of_no_NaN fpcr ha hx hy, hvalid, if_neg Bool.false_ne_true]
  refine ⟨fun hinf => if_pos hinf, fun hinf => ?_, fun haz hxyz hsign hxi hyi => ?_⟩
  · rw [← Bool.or_eq_true] at hinf
    split_ifs with hainf
    · have hsign := sign_eq_productSign_of_invalidOp_eq_false hvalid hainf hinf
      rw [productSign, sign_fpUnpack, sign_fpUnpack, sign_fpUnpack] at hsign
      rw [hsign]
    · rfl
  · obtain ⟨-, hai⟩ := isFinite_of_isZero haz
    simp [hai, hxi, hyi, haz, hxyz, hsign]

/-- Settles O43: the last case of the multiply-add. -/
theorem numericalCase : Obligations.NumericalCase := by
  intro es a x y fpcr ha hx hy hzero
  rw [fpMulAddReference_eq, fpMulAddValues_finite _ _ _ _ _ ha hx hy,
    if_neg (by simpa [productSign, and_assoc] using hzero)]
  exact ⟨fun hv => if_pos hv, fun hv => if_neg hv⟩

/-- Settles O45: the exact sum lies between two neighbours of the format; the nearer is the result, the even one of a
tie. -/
theorem nearestModeGivesNearest : Obligations.NearestModeGivesNearest := by
  intro es a x y u fpcr ha hx hy hmode hflush hfin hu
  obtain ⟨neg, k, field, hlt, hv, hres, hnear⟩ :=
    exists_field_of_unflushed (P := fun _ => IsNearestEven es) ha hx hy hflush hfin (fun _ => isNearestEven_zero es)
      (fun neg k => by rw [hmode]; exact fpRoundFinite_nearest)
  rw [hres, hv, units_fpPack hlt, getLsbD_zero_fpPack (hlt.trans (infinityField_lt es)), decide_eq_false_iff_not,
    ← Ne, Nat.mod_two_ne_one]
  exact hnear.signed neg (isFormatUnits_of_isFinite hu)

/-- Settles O46: a finite result bounds the exact sum's magnitude on the side its mode and sign give. -/
theorem directedModesGiveBounds : Obligations.DirectedModesGiveBounds := by
  intro es a x y u fpcr ha hx hy hflush hfin hu
  have hfmt := isFormatUnits_of_isFinite hu
  have hbound := fun hmode => exists_field_of_unflushed (P := fun neg => IsTightBound es (roundsAway (fpcrRMode fpcr) neg))
    ha hx hy hflush hfin (fun neg => isTightBound_zero es _) (fun neg k => fpRoundFinite_directed hmode)
  refine ⟨fun hmode => ?_, fun hmode => ?_, fun hmode => ?_⟩
  all_goals
    rw [hmode] at hbound
    obtain ⟨neg, k, field, hlt, hv, hres, htight⟩ := hbound (by decide)
    rw [hres, hv, units_fpPack hlt]
  · obtain ⟨hle, hleast⟩ := htight.ceil
    exact ⟨hle, hleast _ hfmt⟩
  · obtain ⟨hle, hgreatest⟩ := htight.floor
    exact ⟨hle, hgreatest _ hfmt⟩
  · obtain ⟨hle, hside, hgreatest⟩ := htight.towardZero neg
    exact ⟨hle, hside, hgreatest _ hfmt⟩

/-- Settles O47: the sum is a normal number's magnitude in `2^-2Q`, which rounding and flushing keep. -/
theorem representableSumIsExact : Obligations.RepresentableSumIsExact := by
  intro es a x y u fpcr ha hx hy hu hnz hsum
  obtain ⟨hufin, hsize⟩ := hu
  have hlt := isFinite_iff.1 hufin
  rw [hnz, units_fpClassify hlt, natAbs_withSign, le_fieldUnits_iff] at hsize
  have hnorm := hsize.resolve_left Bool.false_ne_true
  have hpos : 0 < fieldUnits es (fpField es u) * 2 ^ unitExp es :=
    Nat.mul_pos ((Nat.two_pow_pos _).trans_le (le_fieldUnits_iff.2 hnorm)) (Nat.two_pow_pos _)
  have hv : exactSum es (fpUnpack es a fpcr) (fpUnpack es x fpcr) (fpUnpack es y fpcr) =
      withSign u.msb (fieldUnits es (fpField es u) * 2 ^ unitExp es) := by
    rw [fpUnpack_of_isNotSubnormal ha, fpUnpack_of_isNotSubnormal hx, fpUnpack_of_isNotSubnormal hy, hsum,
      units_fpClassify hlt, withSign_mul, Nat.cast_pow, Nat.cast_ofNat]
  have hfin : ∀ z : BitVec es.bits, IsNotSubnormal es (fpClassify es z) → IsFinite (fpUnpack es z fpcr) := fun z hz => by
    rw [fpUnpack_of_isNotSubnormal hz]
    obtain ⟨hfin, -⟩ := hz
    exact hfin
  rcases fpMulAddReference_of_isFinite (hfin a ha) (hfin x hx) (hfin y hy) with ⟨hzero, -⟩ | ⟨-, hres⟩
  · rw [hv, ← Int.natAbs_eq_zero, natAbs_withSign] at hzero
    exact absurd hzero hpos.ne'
  · rw [hres, hv, decide_withSign_lt_zero hpos, natAbs_withSign, fpRound_fieldUnits hnorm hlt, fpPack_msb_fpField]

/-- Settles O48: the sum is zero, and the zero of either sign is a zero. -/
theorem zeroProductAndAddendGiveZero : Obligations.ZeroProductAndAddendGiveZero := by
  intro es a x y fpcr ha hx hy hxy
  have hfin : ∀ z : BitVec es.bits, IsFinite (fpClassify es z) → IsFinite (fpUnpack es z fpcr) := by
    simp [IsFinite]
  have hsum := exactSum_of_isZero (es := es) (isZero_fpUnpack_of_isZero ha fpcr)
    (hxy.imp (isZero_fpUnpack_of_isZero · fpcr) (isZero_fpUnpack_of_isZero · fpcr))
  rcases fpMulAddReference_of_isFinite (hfin a (isFinite_of_isZero ha)) (hfin x hx) (hfin y hy) with ⟨-, neg, hres⟩ | ⟨hv, -⟩
  · have hfield := fpField_fpPack (neg := neg) (Nat.two_pow_pos (es.bits - 1))
    rw [hres, isZero_fpClassify (hfield.trans_lt (infinityField_pos es)), hfield, decide_eq_true rfl]
  · exact absurd hsum hv

/-- Settles O49: the fields of the rounded number are an infinity's or above, so the overflow table applies. -/
theorem overflowByMode : Obligations.OverflowByMode := by
  intro es a x y fpcr ha hx hy v neg hover
  rcases fpMulAddReference_of_isFinite ha hx hy with ⟨hzero, -⟩ | ⟨-, hres⟩
  · exact absurd (Int.natAbs_eq_zero.2 hzero) (pos_of_overflow hover).ne'
  · rw [hres, fpRound_of_overflow hover]
    cases fpcrRMode fpcr <;> simp [fpOverflow, v, neg]

/-- Settles O50: the flush test of the result is the one stated. -/
theorem tinyResultsFlushed : Obligations.TinyResultsFlushed := by
  intro es a x y fpcr ha hx hy v hv hflush htiny
  rcases fpMulAddReference_of_isFinite ha hx hy with ⟨hzero, -⟩ | ⟨-, hres⟩
  · exact absurd hzero hv
  · rw [hres, fpRound, if_pos]
    rw [resultFlushed, hflush, Bool.true_and]
    split_ifs at htiny ⊢ <;> exact decide_eq_true htiny

/-- Settles O51: both give the same unpacked arguments. -/
theorem inputFlushReplacesSubnormals : Obligations.InputFlushReplacesSubnormals := by
  refine ⟨fun es a x y fpcr => ?_, fun fpcr => ?_⟩
  · simp only [fpMulAddReference_eq, fpUnpack_flushedInput]
  · simp [inputFlush, fpcrFZ16, fpcrFIZ, fpcrFZ, fpcrAH]

/-- Settles O52: the fields agree when their bits do. -/
theorem onlyListedFpcrFieldsMatter : Obligations.OnlyListedFpcrFieldsMatter := by
  intro fpcr fpcr' h23 h22 hah
  have hmode := fpcrRMode_congr h23 h22
  refine ⟨fun h19 => ?_, fun h24 h0 => ?_⟩
  · exact fpMulAddReference_congr (es := .h) hmode hah h19 h19
  · have hin : (fpcrFIZ fpcr || (fpcrFZ fpcr && !fpcrAH fpcr)) = (fpcrFIZ fpcr' || (fpcrFZ fpcr' && !fpcrAH fpcr')) := by
      simp only [fpcrFIZ, fpcrFZ, fpcrAH, h24, h0, hah]
    exact ⟨fpMulAddReference_congr (es := .s) hmode hah hin h24, fpMulAddReference_congr (es := .d) hmode hah hin h24⟩

/-- Settles O53: every case of the multiply-add is symmetric in the factors. -/
theorem factorsCommute : Obligations.FactorsCommute := fun es a x y fpcr => by
  rw [fpMulAddReference_eq, fpMulAddReference_eq, fpMulAddValues_comm]

/-- Settles O44: vectors 18 and 51. -/
theorem multiplyAddIsFused : Obligations.MultiplyAddIsFused := by
  unfold Obligations.MultiplyAddIsFused
  decide +kernel

end Sys2Proof.Proofs.FpArith
end

section
/-! PROOFS. The family of 60_exceptions.md: which reason the enable check reports (R172), the outcome of a step by the decode
verdict and that check (R79, R170, R173), and that a run which goes on stays enabled (R174, R191). -/

namespace Sys2Proof.Machine

/-! ### The word fetched and its verdict -/

theorem fetchWord_of_wordAtPc {s : State} {w : Word} (h : WordAtPc s w) : fetchWord s = .ok w := by
  obtain ⟨hpc, hbytes⟩ := h
  exact fetchWord_of_bytes s w hpc hbytes

/-- A word is fetched at a multiple of 4 only (R52, D12). -/
theorem aligned_of_fetchWord_ok {s : State} {w : Word} (h : fetchWord s = .ok w) : s.pc.toNat % 4 = 0 := by
  by_contra hpc
  rw [fetchWord_misaligned hpc] at h
  cases h

/-- At a multiple of 4 the want of a whole word is the fetch's one refusal (log 15). -/
theorem eq_noProgramWord_of_fetchWord_error {s : State} {e : Refusal} (hpc : s.pc.toNat % 4 = 0)
    (h : fetchWord s = .error e) : e = .noProgramWord := by
  rw [fetchWord, if_neg (not_not.2 hpc)] at h
  split at h
  · cases h
  · injection h with h
    exact h.symm

theorem decodeVerdict_of_none {p : Params} {w : Word} (h : decodeWord w = none) :
    decodeVerdict p w = .notThisInstruction := by
  rw [decodeVerdict, h]

/-- Within the classes the features alone decide the verdict (R78, R79). -/
theorem decodeVerdict_of_some {p : Params} {w : Word} {i : Instr} (h : decodeWord w = some i) :
    decodeVerdict p w = if featuresPresent i.record.esize p then .fmop4a i.record else .undefined := by
  rw [decodeVerdict, h]

/-! ### The reasons of the enable check -/

section

variable {s : State}

theorem enableCheck_of_not_permitted (haccess : s.params.smeAccessEnabled = false) :
    enableCheck s = some .accessTrap := by
  simp [enableCheck, haccess]

theorem enableCheck_of_not_streaming (haccess : s.params.smeAccessEnabled = true) (hsm : s.pstateSM = false) :
    enableCheck s = some .notStreaming := by
  simp [enableCheck, haccess, hsm]

theorem enableCheck_of_za_inactive (haccess : s.params.smeAccessEnabled = true) (hsm : s.pstateSM = true)
    (hza : s.pstateZA = false) : enableCheck s = some .inactiveZA := by
  simp [enableCheck, haccess, hsm, hza]

end

/-! ### Steps of an enabled machine -/

/-- A step that goes on passed the enable check and fetched at a multiple of 4 (R52, R172). -/
theorem enabled_and_aligned_of_step_next {s t : State} (h : step s = .next t) : Enabled s ∧ s.pc.toNat % 4 = 0 := by
  obtain ⟨w, i, hfetch, -, -, hcheck, -⟩ := step_next h
  exact ⟨(enableCheck_eq_none s).1 hcheck, aligned_of_fetchWord_ok hfetch⟩

/-- What the enable check reads is part of the frame (R35, R172). -/
theorem enabled_of_sameElsewhere {s t : State} (hsame : SameElsewhere s t) (h : Enabled s) : Enabled t := by
  obtain ⟨-, -, hsm, hza, -, hparams⟩ := hsame
  rwa [Enabled, hparams, hsm, hza]

/-- What a step can answer where the enable check returns and `pc` is a multiple of 4 (R170). -/
theorem step_cases_of_enabled {s : State} (hen : Enabled s) (hpc : s.pc.toNat % 4 = 0) :
    (∃ u, step s = .next u) ∨ step s = .fault .undefined ∨ step s = .refused .notThisInstruction ∨
      step s = .refused .noProgramWord := by
  rcases step_cases s with ⟨e, hfetch, hs⟩ | ⟨w, -, -, hs⟩ | ⟨w, i, -, -, hs⟩
  · rw [eq_noProgramWord_of_fetchWord_error hpc hfetch] at hs
    exact .inr (.inr (.inr hs))
  · exact .inr (.inr (.inl hs))
  · rcases fmop4a_cases i.record s with ⟨-, hop⟩ | ⟨-, why, hcheck, -⟩ | ⟨-, -, hop⟩
    · exact .inr (.inl (hs.trans hop))
    · rw [(enableCheck_eq_none s).2 hen] at hcheck
      cases hcheck
    · exact .inl ⟨_, hs.trans hop⟩

end Sys2Proof.Machine

/-! ### The obligations -/

namespace Sys2Proof.Proofs.Exceptions

open Sys2Proof.Machine

/-- Settles O9: an instruction's meaning tests the features as the verdict does, then makes the enable check. -/
theorem stepFollowsVerdict : Obligations.StepFollowsVerdict := by
  intro s w hword
  have hfetch := fetchWord_of_wordAtPc hword
  cases hd : decodeWord w with
  | none =>
    rw [decodeVerdict_of_none hd]
    exact step_of_decodeWord_none hfetch hd
  | some i =>
    rw [decodeVerdict_of_some hd, step_of_fetchWord_ok hfetch hd, exec_eq]
    rcases fmop4a_cases i.record s with ⟨hf, hop⟩ | ⟨hf, why, hcheck, hop⟩ | ⟨hf, hcheck, hop⟩
    · rw [hf]
      exact hop
    · rw [hf, hcheck]
      exact hop
    · rw [hf, hcheck]
      exact ⟨_, hop⟩

/-- Settles O37: the first step was enabled and aligned, and the run's frame keeps both. -/
theorem runStaysEnabled : Obligations.RunStaysEnabled := by
  intro n s t hrun
  obtain ⟨u, hstep, -⟩ := run_succ_next hrun
  obtain ⟨hs, halign⟩ := enabled_and_aligned_of_step_next hstep
  obtain ⟨hsame, hpc⟩ := frame_of_run_next hrun
  have ht : Enabled t := enabled_of_sameElsewhere hsame hs
  have halignT : t.pc.toNat % 4 = 0 := by
    rw [hpc, toNat_wordAddr]
    omega
  exact ⟨hs, ht, step_cases_of_enabled ht halignT⟩

/-- Settles O8: the word at `pc` is the word fetched. -/
theorem stepRunsDecodedInstruction : Obligations.StepRunsDecodedInstruction := fun _ _ _ hword hi =>
  step_of_fetchWord_ok (fetchWord_of_wordAtPc hword) hi

/-- Settles O13: the enable check's reason is the trap of every instruction whose features are present. -/
theorem enableCheckReasons : Obligations.EnableCheckReasons := by
  intro i s hf
  rw [exec_eq]
  exact ⟨fun haccess => fmop4a_of_enableCheck hf (enableCheck_of_not_permitted haccess),
    fun haccess hsm => fmop4a_of_enableCheck hf (enableCheck_of_not_streaming haccess hsm),
    fun haccess hsm hza => fmop4a_of_enableCheck hf (enableCheck_of_za_inactive haccess hsm hza)⟩

/-- Settles O15: the codes are the model's table. -/
theorem faultSyndromes : Obligations.FaultSyndromes := ⟨rfl, rfl, rfl, rfl⟩

end Sys2Proof.Proofs.Exceptions
end

section
/-! PROOFS. The family of 70_reset_and_hazards.md: when an instruction completes (R170, R191), and the run of a program,
which fetches its words and executes them in order (R192, R194). -/

namespace Sys2Proof.Machine

/-! ### The addresses of a program -/

/-- The next word's address is the next `pc`, also where it wraps (R29, R194). -/
theorem wordAddr_succ (base : Addr) (k : Nat) :
    base + BitVec.ofNat 64 (4 * (k + 1)) = base + BitVec.ofNat 64 (4 * k) + 4 := by
  rw [Nat.mul_succ, BitVec.ofNat_add, ← BitVec.add_assoc]
  rfl

/-- Fewer than `2^62` words do not reach around to the address past the last (log 28). -/
theorem not_final_at_word {base : Addr} {len k : Nat} {u : State} (hlen : 4 * len < 2 ^ 64) (hk : k < len)
    (hpc : u.pc = base + BitVec.ofNat 64 (4 * k)) : ¬ Final base len u := by
  intro hfinal
  have haddr := congrArg BitVec.toNat (hpc.symm.trans hfinal)
  rw [toNat_wordAddr, toNat_wordAddr] at haddr
  omega

/-! ### One step of a run -/

/-- The end of a run whose first step gave this answer and which goes on as `run` (R194). -/
def runAfter (run : State → ProgramEnd) : Answer → ProgramEnd
  | .next t => run t
  | .fault f => .faulted f
  | .refused r => .refused r

/-- Only the state the step left matters to the rest of the run. -/
theorem runAfter_congr {run run' : State → ProgramEnd} {a : Answer} (h : ∀ t, a = .next t → run t = run' t) :
    runAfter run a = runAfter run' a := by
  cases a with
  | next t => exact h t rfl
  | fault f => rfl
  | refused r => rfl

theorem runProgram_of_final {base : Addr} {len : Nat} {s : State} (h : Final base len s) (fuel : Nat) :
    runProgram base len fuel s = .final s := by
  cases fuel <;> rw [runProgram, if_pos h]

theorem runProgram_succ_of_not_final {base : Addr} {len : Nat} {s : State} (h : ¬ Final base len s) (fuel : Nat) :
    runProgram base len (fuel + 1) s = runAfter (runProgram base len fuel) (step s) := by
  rw [runProgram, if_neg h]
  cases step s <;> rfl

/-- Executing a decoded word is the rest of the list after it. -/
theorem runWords_cons_of_decodeWord {w : Word} {i : Instr} (hi : decodeWord w = some i) (ws : List Word) (s : State) :
    runWords (w :: ws) s = runAfter (runWords ws) (exec i s) := by
  simp only [runWords, hi]
  cases exec i s <;> rfl

/-- Where the first word of a list stands at `pc`, executing it is the step (R170). -/
theorem runWords_cons_of_fetchWord {w : Word} {s : State} (hw : fetchWord s = .ok w) (ws : List Word) :
    runWords (w :: ws) s = runAfter (runWords ws) (step s) := by
  cases hd : decodeWord w with
  | none =>
    rw [step_of_decodeWord_none hw hd]
    simp only [runWords, hd, runAfter]
  | some i => rw [step_of_fetchWord_ok hw hd, runWords_cons_of_decodeWord hd]

/-! ### Whole runs -/

/-- From the address of word `k`, with a step allowed for each word left, the run executes the words from `k` on: every
step keeps the text and moves `pc` to the next word (R35, R29). -/
theorem runProgram_eq_runWords_drop {base : Addr} {ws : List Word} (hbase : base.toNat % 4 = 0)
    (hlen : 4 * ws.length < 2 ^ 64) {fuel k : Nat} (hk : k + fuel = ws.length) {u : State}
    (htext : u.text = placeProgram [] base ws) (hpc : u.pc = base + BitVec.ofNat 64 (4 * k)) :
    runProgram base ws.length fuel u = runWords (ws.drop k) u := by
  induction fuel generalizing k u with
  | zero =>
    obtain rfl : k = ws.length := hk
    rw [runProgram_of_final hpc, List.drop_length, runWords]
  | succ fuel ih =>
    have hlt : k < ws.length := by omega
    have hfetch : fetchWord u = .ok ws[k] := fetchWord_placeProgram ws base k u hbase hlen.le hlt htext hpc
    rw [runProgram_succ_of_not_final (not_final_at_word hlen hlt hpc), List.drop_eq_getElem_cons hlt,
      runWords_cons_of_fetchWord hfetch]
    refine runAfter_congr fun t ht => ?_
    obtain ⟨i, hexec⟩ := exec_of_step_next ht
    obtain ⟨⟨-, -, -, -, htextT, -⟩, -, hpcT⟩ := frame_of_exec_next hexec
    refine ih (by omega) (htextT.trans htext) ?_
    rw [hpcT, hpc, wordAddr_succ]

/-- Words that are instructions with their features present, started enabled, are all executed, and `pc` ends past them
(R29, R191). -/
theorem exists_runWords_final {ws : List Word} {s : State} (hen : Enabled s)
    (hws : ∀ w ∈ ws, ∃ i, decodeWord w = some i ∧ featuresPresent i.record.esize s.params = true) :
    ∃ t, runWords ws s = .final t ∧ Final s.pc ws.length t := by
  induction ws generalizing s with
  | nil => exact ⟨s, rfl, by simp [Final]⟩
  | cons w ws ih =>
    obtain ⟨⟨i, hi, hfeat⟩, hrest⟩ := List.forall_mem_cons.1 hws
    have hexec := exec_of_ready ⟨hfeat, hen⟩
    obtain ⟨hsame, -, hpc⟩ := frame_of_exec_next hexec
    obtain ⟨t, hrun, hfinal⟩ := ih (enabled_of_sameElsewhere hsame hen) hrest
    refine ⟨t, ?_, ?_⟩
    · rw [runWords_cons_of_decodeWord hi, hexec]
      exact hrun
    · rw [Final, hfinal, hpc, List.length_cons, wordAddr_succ, add_right_comm]

end Sys2Proof.Machine

/-! ### The obligations -/

namespace Sys2Proof.Proofs.Programs

open Sys2Proof.Machine

/-- Settles O14: the Operation is reached past the feature test and the enable check, and nothing in it stops. -/
theorem completesExactlyWhenReady : Obligations.CompletesExactlyWhenReady := by
  refine fun i s => ⟨fun ⟨t, hexec⟩ => ?_, fun hready => ⟨_, exec_of_ready hready⟩⟩
  rw [exec_eq] at hexec
  obtain ⟨hfeat, hcheck, -⟩ := fmop4a_next hexec
  exact ⟨hfeat, (enableCheck_eq_none s).1 hcheck⟩

/-- Settles O58: the words stand at their addresses modulo `2^64`, and the address past the last holds none. -/
theorem programFetchesItsWords : Obligations.ProgramFetchesItsWords := by
  intro s base ws hbase hlen
  refine ⟨fun u htext => ⟨fun k w hw hpc => ?_, fun hfinal => ?_⟩, placeProgram_wf ws [] base (by decide), rfl⟩
  · obtain ⟨hk, rfl⟩ := List.getElem?_eq_some_iff.1 hw
    exact fetchWord_placeProgram ws base k u hbase hlen.le hk htext hpc
  · exact step_of_fetchWord_error (fetchWord_final ws base u hbase hlen htext hfinal)

/-- Settles O59: the run from word 0 is the words in order, and those complete one after the other where all are ready. -/
theorem programRunsItsWordsInOrder : Obligations.ProgramRunsItsWordsInOrder := by
  intro s base ws hbase hlen
  have hrun : runProgram base ws.length ws.length (startProgram s base ws) = runWords ws (startProgram s base ws) :=
    runProgram_eq_runWords_drop hbase hlen (Nat.zero_add _) rfl (by simp)
  refine ⟨hrun, fun hen hws => ?_⟩
  rw [hrun]
  exact exists_runWords_final hen hws

end Sys2Proof.Proofs.Programs
end
